-- ==== Sys2Proof/Word.lean ====
section
/-! DEFINITION. The word types of 00_scope.md R6, R8 and R10: `u8`, `u32`, `u64` and byte sequences. -/

namespace Sys2Proof

/-- `u8` (R8). -/
abbrev Byte := BitVec 8

/-- `u32`, the WORD of R6. -/
abbrev Word := BitVec 32

/-- `u64`, the COUNTER of R6. -/
abbrev DWord := BitVec 64

/-- A finite list of bytes, byte 0 first (R10). -/
abbrev ByteSeq := List Byte

end Sys2Proof
end

