-- ==== Sys2Proof/Config.lean ====
section
/-! DEFINITION. The parameters of 00_scope.md R7: the fixed sizes, and the two parameters a model takes as
arguments (SHA_BASE, open; CLEAR_TRAILING_BITS, decided `true`). -/

namespace Sys2Proof

/-- The parameters of one engine on one platform. They are plain data carried by the state and written by no step, so a
claim about every state holds for every base address and for both readings of CLEAR_TRAILING_BITS. -/
structure Config where
  /-- SHA_BASE divided by 0x200: SHA_BASE is aligned to 0x200 (R7), so it is given by this number. -/
  shaBlock : Nat
  /-- CLEAR_TRAILING_BITS (R7, R153, D14). -/
  clearTrailingBits : Bool
  deriving DecidableEq, Repr

namespace Config

/-- SHA_BASE, the base address of the register window, a multiple of 0x200 (R7, R57). -/
def shaBase (c : Config) : Nat := 0x200 * c.shaBlock

/-- The size of the register window in bytes (R30, R50). -/
def windowBytes : Nat := 0x200

/-- DIN_BYTES of R7: the capacity of the input window and the largest byte count of one UPDATE. -/
def dinBytes : Nat := 64

/-- CACHE_MAX of R7: the storage of the pending cache in bytes (R22), enough for the 127 bytes an append can make and the 128
of a padded cache. The cache is a byte list, and no safe run makes it longer than this (log 10). -/
def cacheMax : Nat := 128

/-- OPEN: which 0x200-byte block of the bus the platform gives the engine (R7, R57, D2). It has no body: nothing can be
proved of its value. DESIGN CHOICE, safe: log 4. -/
opaque openShaBlock : Nat

/-- The configuration at reset: the platform's own base, and the spec's value of CLEAR_TRAILING_BITS (R7, D14). -/
def atReset : Config where
  shaBlock := openShaBlock
  clearTrailingBits := true

end Config

end Sys2Proof
end

