-- ==== Sys2Proof/Syntax.lean ====
section
/-! DEFINITION. The five commands of spec/opcode_table.json (30_encoding.md R70, R71), the registers of the window
(10_state.md R30), and the host's bus operations (R78). -/

namespace Sys2Proof

/-- One command, one constructor per row of the opcode table (R71). EXPORT and IMPORT are spelled `exportCk` and
`importCk`: the plain words are Lean keywords. -/
inductive Instr where
  /-- INIT: a fresh engine (R191). -/
  | init
  /-- UPDATE: append `len` bytes of DIN; `blv` says whether the exact bit length `bitlen` is given (R72, R130). -/
  | update (len : BitVec 7) (blv : Bool) (bitlen : BitVec 10)
  /-- DIGEST: pad and finalize (R150). -/
  | digest
  /-- EXPORT: write the checkpoint record (R171). -/
  | exportCk
  /-- IMPORT: read the checkpoint record (R175). -/
  | importCk
  deriving DecidableEq, Repr

/-- The registers of the window (R30). `reserved` is every reserved offset of R40: they all behave alike. -/
inductive Reg where
  | cmd
  | status
  | din (i : Fin 16)
  | result (i : Fin 8)
  | ckShape
  | ckCacheLen
  | ckTotalLo
  | ckTotalHi
  | ckH (i : Fin 8)
  | ckCache (i : Fin 16)
  | reserved
  deriving DecidableEq, Repr

/-- The width of a bus access (R55). -/
inductive AccessWidth where
  | w8
  | w16
  | w32
  | w64
  deriving DecidableEq, Repr

/-- One operation of the host agent (R12, R78). Addresses are absolute bus addresses. -/
inductive HostOp where
  /-- `MemRead(addr, width)`: the value is returned to the host. -/
  | read (addr : Nat) (width : AccessWidth)
  /-- `MemWrite(addr, width, v)`. -/
  | write (addr : Nat) (width : AccessWidth) (v : Word)
  /-- `WAIT`: read STATUS, and again while bit 0 of the value read is 1 (R78). -/
  | wait
  deriving DecidableEq, Repr

end Sys2Proof
end

