-- ==== Sys2Proof/WellFormed.lean ====
section
/-! DEFINITION. The legal field values of a command (30_encoding.md R73). -/

namespace Sys2Proof

/-- LEN <= DIN_BYTES (R73, R74 e). -/
def lenLegal (len : BitVec 7) : Bool := decide (len.toNat ≤ Config.dinBytes)

/-- BLV = 0 requires BITLEN = 0 (R73, R74 f). -/
def bitlenLegal (blv : Bool) (bitlen : BitVec 10) : Bool := blv || bitlen == 0

/-- A command whose fields have the legal values of R73. Whether BITLEN fits LEN is no part of it: the command itself
checks that and answers INVALID_BIT_LENGTH (R73, R132). -/
def Instr.wellFormed : Instr → Bool
  | .init => true
  | .update len blv bitlen => lenLegal len && bitlenLegal blv bitlen
  | .digest => true
  | .exportCk => true
  | .importCk => true

end Sys2Proof
end

