-- ==== Sys2Proof/Decode.lean ====
section
/-! DEFINITION. The decoder of command words, total on all 2^32 of them (30_encoding.md R74, R76), and the encoder
(R70, R77). -/

namespace Sys2Proof

/-- Why a word is illegal: the clauses (a) to (f) of R74, each by name. -/
inductive Illegal where
  /-- (a) OP is 0x0 or 0x6 to 0xF. -/
  | reservedOp
  /-- (b) RSV0 is not 0. -/
  | rsv0
  /-- (c) OP is not UPDATE and bits 31:8 are not 0. -/
  | operandBits
  /-- (d) OP is UPDATE and RSV1 is not 0. -/
  | rsv1
  /-- (e) OP is UPDATE and LEN > 64. -/
  | lenTooLarge
  /-- (f) OP is UPDATE, BLV = 0 and BITLEN is not 0. -/
  | bitlenWithoutBlv
  deriving DecidableEq, Repr

/-! The fields of CMD32 (R70). -/

def opField (w : Word) : BitVec 4 := w.extractLsb' 0 4
def rsv0Field (w : Word) : BitVec 4 := w.extractLsb' 4 4
def lenField (w : Word) : BitVec 7 := w.extractLsb' 8 7
def blvField (w : Word) : Bool := w.getLsbD 15
def bitlenField (w : Word) : BitVec 10 := w.extractLsb' 16 10
def rsv1Field (w : Word) : BitVec 6 := w.extractLsb' 26 6
/-- Bits 31:8, which every OP but UPDATE requires to be 0. -/
def operandField (w : Word) : BitVec 24 := w.extractLsb' 8 24

/-- A command without operands: bits 31:8 must be 0 (R76). -/
def decodeBare (i : Instr) (w : Word) : Except Illegal Instr :=
  if operandField w = 0 then .ok i else .error .operandBits

/-- The UPDATE line of R76. -/
def decodeUpdate (w : Word) : Except Illegal Instr :=
  if rsv1Field w ≠ 0 then .error .rsv1
  else if lenLegal (lenField w) = false then .error .lenTooLarge
  else if bitlenLegal (blvField w) (bitlenField w) = false then .error .bitlenWithoutBlv
  else .ok (.update (lenField w) (blvField w) (bitlenField w))

/-- The decoder of R76: a command, or the clause of R74 that makes the word illegal. -/
def decode (w : Word) : Except Illegal Instr :=
  if rsv0Field w ≠ 0 then .error .rsv0
  else if opField w = 0x1 then decodeBare .init w
  else if opField w = 0x2 then decodeUpdate w
  else if opField w = 0x3 then decodeBare .digest w
  else if opField w = 0x4 then decodeBare .exportCk w
  else if opField w = 0x5 then decodeBare .importCk w
  else .error .reservedOp

/-- An UPDATE word: OP = 2, LEN at 8, BLV at 15, BITLEN at 16, the reserved fields 0 (R70, R77). -/
def encodeUpdate (len : BitVec 7) (blv : Bool) (bitlen : BitVec 10) : Word :=
  0#6 ++ bitlen ++ BitVec.ofBool blv ++ len ++ 0#4 ++ 2#4

/-- The encoding functions of R77. -/
def encode : Instr → Word
  | .init => 0x00000001
  | .update len blv bitlen => encodeUpdate len blv bitlen
  | .digest => 0x00000003
  | .exportCk => 0x00000004
  | .importCk => 0x00000005

/-- The command the decoder reads from a word numbered as spec/opcode_table.json numbers it. Every command is exactly one
32-bit word (R75), so nothing longer decodes. -/
def decodeTableWord (nbits w : Nat) : Option Instr :=
  if nbits ≤ 32 then (decode (BitVec.ofNat 32 (w % 2 ^ nbits))).toOption else none

end Sys2Proof
end

