-- ==== Sys2Proof/Machine/Bytes.lean ====
section
/-! DEFINITION. Byte order: the conversions of 00_scope.md R10, big-endian everywhere (20_memory.md R52, R53). -/

namespace Sys2Proof.Machine

/-- `be32(s4)`: byte 0 goes to bits 31:24 (R10). A missing byte counts as 0, the zero padding of LOADDIN (R78) and of
EXPORT (R171). -/
def be32 (s : ByteSeq) : Word := s.getD 0 0 ++ s.getD 1 0 ++ s.getD 2 0 ++ s.getD 3 0

/-- `be32_bytes(w)` (R10). -/
def be32Bytes (w : Word) : ByteSeq :=
  [w.extractLsb' 24 8, w.extractLsb' 16 8, w.extractLsb' 8 8, w.extractLsb' 0 8]

/-- `be64_bytes(v)`: most significant byte first (R10). -/
def be64Bytes (v : DWord) : ByteSeq := be32Bytes (v.extractLsb' 32 32) ++ be32Bytes (v.extractLsb' 0 32)

/-- `zeros(n)` (R10). -/
def zeros (n : Nat) : ByteSeq := List.replicate n 0

/-- The bytes of a register window, word 0 first: `din_bytes` of R33 and `ck_bytes` of R39. -/
def windowBytes {n : Nat} (v : Vector Word n) : ByteSeq := v.toList.flatMap be32Bytes

/-- The 16 words that hold up to 64 bytes, zero beyond them: word i is `be32(p[4i : 4i+4])` (R171, R39). -/
def packBytes (p : ByteSeq) : Vector Word 16 := Vector.ofFn fun i => be32 (p.drop (4 * i.val))

end Sys2Proof.Machine
end

