-- ==== Sys2Proof/Machine/Compression.lean ====
section
/-! DEFINITION. The message block scheduler and the compression function (40_compression.md). All of it is pure (R112) and
wraps modulo 2^32 (R113). -/

namespace Sys2Proof.Machine

/-- `ROTR(x, n)`, for 0 < n < 32 (R9). -/
def rotr (x : Word) (n : Nat) : Word := (x >>> n) ||| (x <<< (32 - n))

/-- `SHR(x, n)` (R9). -/
def shr (x : Word) (n : Nat) : Word := x >>> n

/-- `ch` (R103). -/
def ch (x y z : Word) : Word := (x &&& y) ^^^ (~~~x &&& z)

/-- `maj` (R104). -/
def maj (x y z : Word) : Word := (x &&& y) ^^^ (x &&& z) ^^^ (y &&& z)

/-- `Σ0` (R105). -/
def bigSigma0 (x : Word) : Word := rotr x 2 ^^^ rotr x 13 ^^^ rotr x 22

/-- `Σ1` (R106). -/
def bigSigma1 (x : Word) : Word := rotr x 6 ^^^ rotr x 11 ^^^ rotr x 25

/-- `σ0` (R107). -/
def smallSigma0 (x : Word) : Word := rotr x 7 ^^^ rotr x 18 ^^^ shr x 3

/-- `σ1` (R108). -/
def smallSigma1 (x : Word) : Word := rotr x 17 ^^^ rotr x 19 ^^^ shr x 10

/-- The next schedule word from the earlier ones, newest first: W[t-2], W[t-7], W[t-15] and W[t-16] stand at 1, 6, 14 and
15 (R110). -/
def nextScheduleWord (ws : List Word) : Word :=
  smallSigma1 (ws.getD 1 0) + ws.getD 6 0 + smallSigma0 (ws.getD 14 0) + ws.getD 15 0

/-- `n` more schedule words, newest first. -/
def extendSchedule : Nat → List Word → List Word
  | 0, ws => ws
  | n + 1, ws => extendSchedule n (nextScheduleWord ws :: ws)

/-- The first 16 words: the block as big-endian words (R110). -/
def blockWords (blk : ByteSeq) : List Word := (List.range 16).map fun t => be32 (blk.drop (4 * t))

/-- The schedule W[0..63] of a block (R110). -/
def schedule (blk : ByteSeq) : List Word := (extendSchedule 48 (blockWords blk).reverse).reverse

/-- The working registers a to h (R111); not architectural (R24). -/
structure Work where
  (a b c d e f g h : Word)
  deriving DecidableEq, Repr

/-- The working registers at the start: H[0..7] (R111). -/
def workOf (v : Vector Word 8) : Work := ⟨v[0], v[1], v[2], v[3], v[4], v[5], v[6], v[7]⟩

/-- One round with its constant and its schedule word (R111). -/
def oneRound (r : Work) (k w : Word) : Work :=
  let t1 := r.h + bigSigma1 r.e + ch r.e r.f r.g + k + w
  let t2 := bigSigma0 r.a + maj r.a r.b r.c
  ⟨t1 + t2, r.a, r.b, r.c, r.d + t1, r.e, r.f, r.g⟩

/-- All the rounds, in order. -/
def runRounds (r : Work) (kws : List (Word × Word)) : Work :=
  kws.foldl (fun r kw => oneRound r kw.1 kw.2) r

/-- The final word-wise addition (R111). -/
def addWork (v : Vector Word 8) (r : Work) : Vector Word 8 :=
  #v[v[0] + r.a, v[1] + r.b, v[2] + r.c, v[3] + r.d, v[4] + r.e, v[5] + r.f, v[6] + r.g, v[7] + r.h]

/-- `compress(H, blk)` (R111). -/
def compress (v : Vector Word 8) (blk : ByteSeq) : Vector Word 8 :=
  addWork v (runRounds (workOf v) (roundConstants.zip (schedule blk)))

/-- Compress the first `n` 64-byte blocks of a byte sequence in order (R134, R155). -/
def compressBlocks : Nat → Vector Word 8 → ByteSeq → Vector Word 8
  | 0, v, _ => v
  | n + 1, v, s => compressBlocks n (compress v (s.take 64)) (s.drop 64)

end Sys2Proof.Machine
end

