-- ==== Sys2Proof/Machine/State.lean ====
section
/-! DEFINITION. The state of the machine (10_state.md), its reset value (R44, R231), and the reasons a step can stop. -/

namespace Sys2Proof.Machine

/-- The result codes of 60_exceptions.md R200. Codes 7 to 15 are never produced, so they have no name. -/
inductive ErrCode where
  /-- 0 OK. -/
  | ok
  /-- 1 INVALID_BIT_LENGTH. -/
  | invalidBitLength
  /-- 2 LATE_UPDATE_AFTER_PARTIAL_BYTE. -/
  | lateUpdateAfterPartialByte
  /-- 3 CORRUPT_PADDING_STATE. -/
  | corruptPaddingState
  /-- 4 UPDATE_AFTER_DIGEST. -/
  | updateAfterDigest
  /-- 5 INVALID_COMMAND. -/
  | invalidCommand
  /-- 6 INVALID_CHECKPOINT. -/
  | invalidCheckpoint
  deriving DecidableEq, Repr

/-- The internal engine state, a tagged union (R20). -/
inductive Engine where
  /-- LIVE: ChainingState (R21), BitCounter (R23), PendingCache (R22), at most `Config.cacheMax` bytes
  even within a command of a safe state (R7). -/
  | live (h : Vector Word 8) (t : DWord) (cache : ByteSeq)
  /-- FINAL: Digest (R26) and BitCounter. -/
  | final (d : Vector Word 8) (t : DWord)
  /-- FATAL carries no data (R20, R204). -/
  | fatal
  deriving DecidableEq, Repr

/-- The checkpoint window CK_* (R35 to R39, R170), each register at the bits it keeps. -/
structure Checkpoint where
  /-- CK_SHAPE bit 0: 0 live, 1 finalized (R35). -/
  shape : BitVec 1
  /-- CK_CACHE_LEN bits 6:0 (R36). -/
  cacheLen : BitVec 7
  /-- CK_TOTAL_LO (R37). -/
  totalLo : Word
  /-- CK_TOTAL_HI (R37). -/
  totalHi : Word
  /-- CK_H[0..7] (R38). -/
  h : Vector Word 8
  /-- CK_CACHE[0..15] (R39). -/
  cache : Vector Word 16
  deriving DecidableEq, Repr

/-- Which agent moves (R5, R236), or the platform's reset (R230). -/
inductive Turn where
  /-- The host makes its next bus access. -/
  | host
  /-- The engine commits the pending command, if there is one. -/
  | engine
  /-- The platform resets the block. -/
  | reset
  deriving DecidableEq, Repr

/-- A value a host read returned, with the bus address it was read from (R12). -/
structure ReadValue where
  addr : Nat
  value : Word
  deriving DecidableEq, Repr

/-- Why the machine stops with a fault. -/
inductive Fault where
  /-- ModelFault(COUNTER_OVERFLOW): an UPDATE would carry the BitCounter above 2^64 - 1 (R133, R216 a). Raised by
  `execUpdate`. Safe: the spec gives no hardware behaviour there (R133 has a model fault). DEDUCED, log 8. -/
  | counterOverflow
  /-- A host access to a bus address outside the register window, which this hardware does not have (R50, R57). Raised by
  `selectReg`. Safe: nothing is claimed of what lies there. DEDUCED, log 7. -/
  | noSuchAddress
  deriving DecidableEq, Repr

/-- Why a step has no meaning. -/
inductive Refusal where
  /-- A command without a meaning yet. Raised only by a refused arm of `exec`, of which this model has none. Safe. -/
  | notModelled (mnemonic : String)
  /-- A host access of 8, 16 or 64 bits: the spec leaves the response unspecified and has a model refuse it (R55, R216 b).
  Raised by `selectReg`. Safe. DEDUCED, log 6. -/
  | unsupportedWidth
  /-- A host access at an address that is no multiple of 4 (R55, R216 b). Raised by `selectReg`. Safe. DEDUCED, log 6. -/
  | misaligned
  deriving DecidableEq, Repr

/-- The whole state: the engine (R20, R28), the registers of the window that have storage (R33, R35 to R39), the
parameters (R7), and the model's own account of the host and of who moves next (R5, R59, R236; logs 1 to 3). -/
structure State where
  /-- `eng` (R20). -/
  eng : Engine
  /-- `eng.pending`: the command word written and not yet committed (R28). -/
  pending : Option Word
  /-- `eng.ovr`: the sticky overrun flag (R28). -/
  ovr : Bool
  /-- `eng.err`: the result of the last committed command (R28). -/
  err : ErrCode
  /-- DIN[0..15] (R33). -/
  din : Vector Word 16
  /-- The CK_* registers (R35 to R39). -/
  ck : Checkpoint
  /-- The parameters of R7. No step writes them. -/
  config : Config
  /-- The host operations still to come, in arrival order (R59). The model's own field, log 3. -/
  host : List HostOp
  /-- The values reads have returned, newest first (R12). The model's own field, log 3. -/
  reads : List ReadValue
  /-- Who moves next (R236). The model's own field, log 1. -/
  turns : List Turn
  deriving DecidableEq, Repr

/-- The outcome of an instruction or of a step. -/
abbrev Result := Host.Outcome State Fault Refusal

/-- The engine fields of a fresh engine: LIVE, H = IV, T = 0, no pending bytes (R191, R231). -/
def Engine.fresh : Engine := .live initialH 0 []

/-- The checkpoint window of zeros (R44). -/
def Checkpoint.zero : Checkpoint where
  shape := 0
  cacheLen := 0
  totalLo := 0
  totalHi := 0
  h := Vector.replicate 8 0
  cache := Vector.replicate 16 0

/-- The machine right after reset (R44, R231); the host has nothing to do and no turn is scheduled (logs 1, 3). -/
def State.reset : State where
  eng := .fresh
  pending := none
  ovr := false
  err := .ok
  din := Vector.replicate 16 0
  ck := .zero
  config := .atReset
  host := []
  reads := []
  turns := []

end Sys2Proof.Machine
end

