-- ==== Sys2Proof/Machine/Ops.lean ====
section
/-! DEFINITION. The named operations on the state that everything else is written with: one update per field, the two
ways a command ends (00_scope.md R12, 44_control.md R190), and the platform's reset (70_reset_and_hazards.md R230).

This hardware has no exception entry and no return from one (60_exceptions.md R209): the one shared operation of that kind
is `raiseErr`, the commit with an error code (R201). -/

namespace Sys2Proof.Machine

/-! Field updates. -/

def State.withEng (s : State) (e : Engine) : State := { s with eng := e }
def State.withPending (s : State) (p : Option Word) : State := { s with pending := p }
def State.withOvr (s : State) (b : Bool) : State := { s with ovr := b }
def State.withErr (s : State) (c : ErrCode) : State := { s with err := c }
def State.withDin (s : State) (d : Vector Word 16) : State := { s with din := d }
def State.withCk (s : State) (c : Checkpoint) : State := { s with ck := c }
def State.withHost (s : State) (h : List HostOp) : State := { s with host := h }
def State.withTurns (s : State) (ts : List Turn) : State := { s with turns := ts }

/-- A value goes back to the host (R12 MemRead). -/
def State.logRead (s : State) (addr : Nat) (v : Word) : State := { s with reads := ⟨addr, v⟩ :: s.reads }

/-- The end of every commit: `eng.err` takes the result code and `eng.pending` becomes none, so BUSY falls (R190). -/
def commitCode (c : ErrCode) (s : State) : State := (s.withErr c).withPending none

/-- `finish OK` (R12): the state given holds the command's effects. -/
def finishOk (s : State) : Result := .next (commitCode .ok s)

/-- `raise Err(code)` (R12): every `eng` field and every CK_* register is as before; only the code is committed. -/
def raiseErr (c : ErrCode) (s : State) : Result := .next (commitCode c s)

/-- The move to FATAL with code 3 of DIGEST's post-condition, which is not a `raise` (R12, R154, R204). -/
def enterFatal (s : State) : Result := .next (commitCode .corruptPaddingState (s.withEng .fatal))

/-- The platform's reset of the block (R230, R231): a pending command is abandoned and every register takes its reset value.
The host's own account, the parameters and the schedule are not the block's: DEDUCED, safe, log 14. -/
def platformReset (s : State) : State :=
  { State.reset with config := s.config, host := s.host, reads := s.reads, turns := s.turns }

end Sys2Proof.Machine
end

