-- ==== Sys2Proof/Machine/Operands.lean ====
section
/-! DEFINITION. The operands of the commands: UPDATE's chunk and bit count (41_update.md R130, R132), the cache length a
bit count requires (10_state.md R27), and IMPORT's fields of the checkpoint window (43_checkpoint.md R175). -/

namespace Sys2Proof.Machine

/-- `din_bytes` (R33). -/
def dinBytes (s : State) : ByteSeq := windowBytes s.din

/-- The chunk of an UPDATE, `din_bytes[0:LEN]` (R72). -/
def chunk (len : BitVec 7) (s : State) : ByteSeq := (dinBytes s).take len.toNat

/-- The number of bits an UPDATE contributes, or none where BITLEN does not fit LEN (R132). The spec's `8*LEN - 8 < BITLEN`
is on integers, and is written here without the subtraction. -/
def updateBits (len : BitVec 7) (blv : Bool) (bitlen : BitVec 10) : Option Nat :=
  if blv then
    if bitlen.toNat % 8 = 0 then
      if bitlen.toNat = 8 * len.toNat then some bitlen.toNat else none
    else
      if 8 * len.toNat < bitlen.toNat + 8 ∧ bitlen.toNat < 8 * len.toNat then some bitlen.toNat else none
  else some (8 * len.toNat)

/-- `expected_len(T)` (R27). -/
def expectedLen (t : Nat) : Nat :=
  if t % 8 ≠ 0 ∧ (t + 7) / 8 % 64 = 0 then 64 else (t + 7) / 8 % 64

/-- `total_bits` of the checkpoint: CK_TOTAL_HI * 2^32 + CK_TOTAL_LO (R37). -/
def totalBits (ck : Checkpoint) : DWord := ck.totalHi ++ ck.totalLo

/-- `ck_bytes[0:L]` with L = CK_CACHE_LEN[6:0] (R39, R175). -/
def importedCache (ck : Checkpoint) : ByteSeq := (windowBytes ck.cache).take ck.cacheLen.toNat

end Sys2Proof.Machine
end

