-- ==== Sys2Proof/Machine/Accumulator.lean ====
section
/-! DEFINITION. UPDATE, the streaming accumulator (41_update.md). -/

namespace Sys2Proof.Machine

/-- The `while len(c) > 64` loop of R134. The fuel is a bound on the iterations: each removes 64 bytes, so the length of
the cache is always enough. -/
def drainFull : Nat → Vector Word 8 → ByteSeq → Vector Word 8 × ByteSeq
  | 0, h, c => (h, c)
  | n + 1, h, c => if 64 < c.length then drainFull n (compress h (c.take 64)) (c.drop 64) else (h, c)

/-- The step at exactly 64 bytes: compressed only if the bit count is byte-aligned, else withheld (R134). -/
def drainExact (t : Nat) (hc : Vector Word 8 × ByteSeq) : Vector Word 8 × ByteSeq :=
  if hc.2.length = 64 ∧ t % 8 = 0 then (compress hc.1 (hc.2.take 64), []) else hc

/-- The drain (R134): from a chaining state and a cache just appended to, with the new bit count. -/
def drain (t : Nat) (h : Vector Word 8) (c : ByteSeq) : Vector Word 8 × ByteSeq :=
  drainExact t (drainFull c.length h c)

/-- Append, count and drain (R133, R134). -/
def absorb (h : Vector Word 8) (t : DWord) (cache bytes : ByteSeq) (nbits : Nat) : Engine :=
  let t' := t + BitVec.ofNat 64 nbits
  let hc := drain t'.toNat h (cache ++ bytes)
  .live hc.1 t' hc.2

/-- UPDATE in LIVE mode, from the partial check on (R130). -/
def updateLive (h : Vector Word 8) (t : DWord) (cache : ByteSeq) (len : BitVec 7) (blv : Bool) (bitlen : BitVec 10)
    (s : State) : Result :=
  if t.toNat % 8 ≠ 0 then raiseErr .lateUpdateAfterPartialByte s
  else
    match updateBits len blv bitlen with
    | none => raiseErr .invalidBitLength s
    | some nbits =>
      if len = 0 then finishOk s
      else if 2 ^ 64 - 1 < t.toNat + nbits then .fault .counterOverflow
      else finishOk (s.withEng (absorb h t cache (chunk len s) nbits))

/-- UPDATE (R130), with the checks in the order of R131. -/
def execUpdate (len : BitVec 7) (blv : Bool) (bitlen : BitVec 10) (s : State) : Result :=
  match s.eng with
  | .fatal => raiseErr .corruptPaddingState s
  | .final _ _ => raiseErr .updateAfterDigest s
  | .live h t cache => updateLive h t cache len blv bitlen s

end Sys2Proof.Machine
end

