-- ==== Sys2Proof/Machine/Control.lean ====
section
/-! DEFINITION. INIT and the illegal words (44_control.md R191 to R193). -/

namespace Sys2Proof.Machine

/-- INIT: a fresh engine and OVR cleared, in every mode; DIN and CK_* stay (R191). -/
def execInit (s : State) : Result := finishOk ((s.withEng .fresh).withOvr false)

/-- INVALID: an illegal word commits with code 5 and nothing else (R193). -/
def execInvalid (s : State) : Result := raiseErr .invalidCommand s

end Sys2Proof.Machine
end

