-- ==== Sys2Proof/Machine/Finalizer.lean ====
section
/-! DEFINITION. DIGEST, the bit-aware padding and finalization (42_finalize.md). -/

namespace Sys2Proof.Machine

/-- The number of zero-fill bytes from `last_block_bits` (R151, R152). -/
def zeroFill (lbb : Nat) : Nat := if lbb < 448 then 55 - lbb / 8 else 119 - lbb / 8

/-- The byte that holds the final partial bits, with the padding bit set at shift `sh`; the excess bits below it are
cleared first when CLEAR_TRAILING_BITS (R153). -/
def padPartialByte (clear : Bool) (sh : Nat) (b : Byte) : Byte :=
  (if clear then b &&& (0xFF#8 <<< (8 - sh)) else b) ||| (0x80#8 >>> sh)

/-- The padding bit: into the last byte at a sub-byte boundary, else a fresh 0x80 (R153). None is the empty cache of a
partial state, which R150 calls unreachable. -/
def addPaddingBit (clear : Bool) (t : Nat) (c : ByteSeq) : Option ByteSeq :=
  if t % 8 ≠ 0 then
    match c.getLast? with
    | none => none
    | some last => some (c.dropLast ++ [padPartialByte clear (t % 8) last])
  else some (c ++ [0x80])

/-- The padded cache (R150, R154), or none where the post-condition fails. -/
def padCache (clear : Bool) (t : DWord) (c : ByteSeq) : Option ByteSeq :=
  match addPaddingBit clear t.toNat c with
  | none => none
  | some c' =>
    let p := c' ++ zeros (zeroFill (t.toNat % 512)) ++ be64Bytes t
    if p.length = 64 ∨ p.length = 128 then some p else none

/-- DIGEST in LIVE mode (R150, R155). -/
def digestLive (h : Vector Word 8) (t : DWord) (cache : ByteSeq) (s : State) : Result :=
  match padCache s.config.clearTrailingBits t cache with
  | none => enterFatal s
  | some p => finishOk (s.withEng (.final (compressBlocks (p.length / 64) h p) t))

/-- DIGEST (R150). In FINAL mode it is memoized (R156). -/
def execDigest (s : State) : Result :=
  match s.eng with
  | .fatal => raiseErr .corruptPaddingState s
  | .final _ _ => finishOk s
  | .live h t cache => digestLive h t cache s

end Sys2Proof.Machine
end

