-- ==== Sys2Proof/Machine/Serializer.lean ====
section
/-! DEFINITION. EXPORT and IMPORT, the checkpoint serializer (43_checkpoint.md). -/

namespace Sys2Proof.Machine

/-- The checkpoint record of an engine (R170, R171), a function of the engine alone (R172); FATAL has none. -/
def exportRecord : Engine → Option Checkpoint
  | .live h t cache =>
    some { shape := 0, cacheLen := BitVec.ofNat 7 cache.length, totalLo := t.extractLsb' 0 32,
           totalHi := t.extractLsb' 32 32, h := h, cache := packBytes cache }
  | .final d t =>
    some { shape := 1, cacheLen := 0, totalLo := t.extractLsb' 0 32, totalHi := t.extractLsb' 32 32, h := d,
           cache := Vector.replicate 16 0 }
  | .fatal => none

/-- The engine a record describes (R175, R176); none is the inconsistent live record of R178. -/
def importEngine (ck : Checkpoint) : Option Engine :=
  if ck.shape = 1 then some (.final ck.h (totalBits ck))
  else if ck.cacheLen.toNat ≠ expectedLen (totalBits ck).toNat then none
  else some (.live ck.h (totalBits ck) (importedCache ck))

/-- EXPORT (R171): the record is a copy, and no `eng` field changes (R173). -/
def execExport (s : State) : Result :=
  match exportRecord s.eng with
  | none => raiseErr .corruptPaddingState s
  | some r => finishOk (s.withCk r)

/-- IMPORT (R175): accepted in every mode, FATAL included. -/
def execImport (s : State) : Result :=
  match importEngine s.ck with
  | none => raiseErr .invalidCheckpoint s
  | some e => finishOk (s.withEng e)

end Sys2Proof.Machine
end

