-- ==== Sys2Proof/Machine/Dispatch.lean ====
section
/-! DEFINITION. The dispatch of a decoded command to its meaning (44_control.md R190). -/

namespace Sys2Proof.Machine

def exec (i : Instr) (s : State) : Host.Outcome State Fault Refusal :=
  match i with
  | .init => Sys2Proof.Machine.execInit s
  | .update len blv bitlen => Sys2Proof.Machine.execUpdate len blv bitlen s
  | .digest => Sys2Proof.Machine.execDigest s
  | .exportCk => Sys2Proof.Machine.execExport s
  | .importCk => Sys2Proof.Machine.execImport s

end Sys2Proof.Machine
end

