-- ==== Sys2Proof/Machine/Commit.lean ====
section
/-! DEFINITION. The commit of a pending command word: decode, then the command or INVALID (44_control.md R190). -/

namespace Sys2Proof.Machine

/-- `COMMIT(w)` (R190). The result code and the fall of BUSY are part of what the command's meaning answers. -/
def commit (w : Word) (s : State) : Result :=
  match decode w with
  | .ok i => exec i s
  | .error _ => execInvalid s

end Sys2Proof.Machine
end

