-- ==== Sys2Proof/Machine/Flags.lean ====
section
/-! DEFINITION. The flags of this hardware: the fields of STATUS and their composition (10_state.md R25, R32, 60_exceptions.md R200). -/

namespace Sys2Proof.Machine

/-- The 4-bit value of a result code (R200). -/
def errValue : ErrCode → BitVec 4
  | .ok => 0
  | .invalidBitLength => 1
  | .lateUpdateAfterPartialByte => 2
  | .corruptPaddingState => 3
  | .updateAfterDigest => 4
  | .invalidCommand => 5
  | .invalidCheckpoint => 6

/-- The partial flag: LIVE with T mod 8 not 0 (R25). -/
def isPartial : Engine → Bool
  | .live _ t _ => t.toNat % 8 != 0
  | .final _ _ => false
  | .fatal => false

/-- STATUS.STATE: 0 LIVE, 1 PARTIAL, 2 FINAL, 3 FATAL (R32). -/
def stateField (e : Engine) : BitVec 2 :=
  match e with
  | .live _ _ _ => if isPartial e then 1 else 0
  | .final _ _ => 2
  | .fatal => 3

/-- STATUS: ERRCODE[7:4], OVR[3], STATE[2:1], BUSY[0], the rest 0 (R32). -/
def statusWord (s : State) : Word :=
  0#24 ++ errValue s.err ++ BitVec.ofBool s.ovr ++ stateField s.eng ++ BitVec.ofBool s.pending.isSome

end Sys2Proof.Machine
end

