-- ==== Sys2Proof/Machine/Window.lean ====
section
/-! DEFINITION. The register window: its map (10_state.md R30, R40) and the two host accesses to it, read and write
(44_control.md R194, R195). -/

namespace Sys2Proof.Machine

/-- The register at a word-aligned offset of the window (R30). What is listed nowhere is reserved (R40). -/
def regAt (off : Nat) : Reg :=
  if off = 0x000 then .cmd
  else if off = 0x004 then .status
  else if h : 0x040 ≤ off ∧ off < 0x080 then .din ⟨(off - 0x040) / 4, by omega⟩
  else if h : 0x080 ≤ off ∧ off < 0x0A0 then .result ⟨(off - 0x080) / 4, by omega⟩
  else if off = 0x100 then .ckShape
  else if off = 0x104 then .ckCacheLen
  else if off = 0x108 then .ckTotalLo
  else if off = 0x10C then .ckTotalHi
  else if h : 0x120 ≤ off ∧ off < 0x140 then .ckH ⟨(off - 0x120) / 4, by omega⟩
  else if h : 0x140 ≤ off ∧ off < 0x180 then .ckCache ⟨(off - 0x140) / 4, by omega⟩
  else .reserved

/-- The offset of a register (R30); for `reserved`, the first reserved offset. -/
def regOffset : Reg → Nat
  | .cmd => 0x000
  | .status => 0x004
  | .din i => 0x040 + 4 * i.val
  | .result i => 0x080 + 4 * i.val
  | .ckShape => 0x100
  | .ckCacheLen => 0x104
  | .ckTotalLo => 0x108
  | .ckTotalHi => 0x10C
  | .ckH i => 0x120 + 4 * i.val
  | .ckCache i => 0x140 + 4 * i.val
  | .reserved => 0x008

/-- The bus address of a register, SHA_BASE + offset (R50). -/
def regAddr (c : Config) (r : Reg) : Nat := c.shaBase + regOffset r

/-- The register a host access selects. An address outside the window does not exist in this hardware (R50, R57); an access
that is not of 32 bits, or not aligned, has no step (R55, R216 b). -/
def selectReg (c : Config) (addr : Nat) (width : AccessWidth) : Host.Outcome Reg Fault Refusal :=
  if addr < c.shaBase ∨ c.shaBase + Config.windowBytes ≤ addr then .fault .noSuchAddress
  else if width ≠ .w32 then .refused .unsupportedWidth
  else if addr % 4 ≠ 0 then .refused .misaligned
  else .next (regAt (addr - c.shaBase))

/-- RESULT[i]: the digest word in FINAL mode, 0 otherwise (R34). -/
def resultWord (e : Engine) (i : Fin 8) : Word :=
  match e with
  | .live _ _ _ => 0
  | .final d _ => d[i]
  | .fatal => 0

/-- The value a host read returns (R194). -/
def readReg (r : Reg) (s : State) : Word :=
  match r with
  | .cmd => 0
  | .status => statusWord s
  | .din i => s.din[i]
  | .result i => resultWord s.eng i
  | .ckShape => s.ck.shape.setWidth 32
  | .ckCacheLen => s.ck.cacheLen.setWidth 32
  | .ckTotalLo => s.ck.totalLo
  | .ckTotalHi => s.ck.totalHi
  | .ckH i => s.ck.h[i]
  | .ckCache i => s.ck.cache[i]
  | .reserved => 0

/-- A write to a register with storage: stored while no command is pending, else discarded with OVR set (R41, R195). -/
def storeOrOverrun (s : State) (stored : State) : State :=
  match s.pending with
  | none => stored
  | some _ => s.withOvr true

/-- A host write (R195). CK_SHAPE keeps bit 0 and CK_CACHE_LEN bits 6:0 (R35, R36). -/
def writeReg (r : Reg) (v : Word) (s : State) : State :=
  match r with
  | .cmd => storeOrOverrun s (s.withPending (some v))
  | .status => s
  | .din i => storeOrOverrun s (s.withDin (s.din.set i v))
  | .result _ => s
  | .ckShape => storeOrOverrun s (s.withCk { s.ck with shape := v.extractLsb' 0 1 })
  | .ckCacheLen => storeOrOverrun s (s.withCk { s.ck with cacheLen := v.extractLsb' 0 7 })
  | .ckTotalLo => storeOrOverrun s (s.withCk { s.ck with totalLo := v })
  | .ckTotalHi => storeOrOverrun s (s.withCk { s.ck with totalHi := v })
  | .ckH i => storeOrOverrun s (s.withCk { s.ck with h := s.ck.h.set i v })
  | .ckCache i => storeOrOverrun s (s.withCk { s.ck with cache := s.ck.cache.set i v })
  | .reserved => s

end Sys2Proof.Machine
end

