-- ==== Sys2Proof/Machine/Schedule.lean ====
section
/-! DEFINITION. The two agents and the schedule: what the host and the engine do in one turn (00_scope.md R5, 20_memory.md
R59, 70_reset_and_hazards.md R230, R236). -/

namespace Sys2Proof.Machine

/-- The host makes the access `op`; `rest` is what it has still to do. WAIT reads STATUS, and stays to be done again while
BUSY is 1 (R78; one read a turn is DEDUCED, log 13). -/
def hostAccess (op : HostOp) (rest : List HostOp) (s : State) : Result :=
  match op with
  | .read addr width =>
    match selectReg s.config addr width with
    | .next r => .next ((s.withHost rest).logRead addr (readReg r s))
    | .fault f => .fault f
    | .refused q => .refused q
  | .write addr width v =>
    match selectReg s.config addr width with
    | .next r => .next (writeReg r v (s.withHost rest))
    | .fault f => .fault f
    | .refused q => .refused q
  | .wait =>
    let v := readReg .status s
    .next ((s.withHost (if v.getLsbD 0 then .wait :: rest else rest)).logRead (regAddr s.config .status) v)

/-- The host's turn: its next access, in program order (R59). A host with nothing to do leaves the engine as it is (R215). -/
def hostTurn (s : State) : Result :=
  match s.host with
  | [] => .next s
  | op :: rest => hostAccess op rest s

/-- The engine's turn: it commits the pending command; without one it is idle (R215, R235). -/
def engineTurn (s : State) : Result :=
  match s.pending with
  | none => .next s
  | some w => commit w s

/-- One turn of the agent that `turns` names. When no turn is scheduled the engine moves first, so every pending command
commits in the end (R236; DESIGN CHOICE, log 2). -/
def oneTurn (s : State) : Result :=
  match s.turns with
  | [] => if s.pending.isSome then engineTurn s else hostTurn s
  | .host :: ts => hostTurn (s.withTurns ts)
  | .engine :: ts => engineTurn (s.withTurns ts)
  | .reset :: ts => .next (platformReset (s.withTurns ts))

/-- A command word as the next thing the engine commits: it is pending, as after an accepted write to CMD (R31), and the
engine's turn is next. -/
def placeCommand (w : Word) (s : State) : State := (s.withPending (some w)).withTurns (.engine :: s.turns)

end Sys2Proof.Machine
end

