-- ==== Sys2Proof/Machine/Step.lean ====
section
/-! DEFINITION. One step of the machine, and the placing of a command where the next step runs it. -/

namespace Sys2Proof.Machine

/-- One step: one turn of one agent (00_scope.md R4, R5). -/
def step (s : State) : Host.Outcome State Fault Refusal := oneTurn s

/-- `s` with the command word `w`, numbered as spec/opcode_table.json numbers it, pending and about to be committed. -/
def State.withFetchWord (s : State) (nbits w : Nat) : State := placeCommand (BitVec.ofNat 32 (w % 2 ^ nbits)) s

end Sys2Proof.Machine
end

