-- ==== Sys2Proof/Machine/HostProgram.lean ====
section
/-! DEFINITION. The host-side notation of 30_encoding.md R78, as lists of host operations. -/

namespace Sys2Proof.Machine

/-- `WR <REG>, <v32>`. -/
def hostWR (c : Config) (r : Reg) (v : Word) : HostOp := .write (regAddr c r) .w32 v

/-- `RD <REG>`. -/
def hostRD (c : Config) (r : Reg) : HostOp := .read (regAddr c r) .w32

/-- `CMD <mnemonic>`: `WR CMD, enc(<mnemonic>)`. -/
def hostCMD (c : Config) (i : Instr) : HostOp := hostWR c .cmd (encode i)

/-- `RUN <mnemonic>`: `CMD <mnemonic>; WAIT`. -/
def hostRUN (c : Config) (i : Instr) : List HostOp := [hostCMD c i, .wait]

/-- `LOADDIN <bytes>`: DIN[i] takes `be32` of the i-th group of 4 bytes, the last group padded with zeros. More than 64 bytes
would need a word past DIN[15], which the window does not have: there is no such sequence. DESIGN CHOICE, log 19. -/
def hostLOADDIN (c : Config) (bytes : ByteSeq) : Option (List HostOp) :=
  if bytes.length ≤ Config.dinBytes then
    some ((List.range ((bytes.length + 3) / 4)).map fun i =>
      hostWR c (.din (Fin.ofNat 16 i)) (packBytes bytes)[Fin.ofNat 16 i])
  else none

/-- `EXPECT <REG>[<hi>:<lo>] = <v>`: the read is made, and this compares the field of the value it returned. -/
def expectField (hi lo v : Nat) (read : Word) : Bool := read.toNat % 2 ^ (hi + 1) / 2 ^ lo == v

/-- The UPDATE of one chunk, with or without an exact bit length. R77 encodes 0 <= n <= 64 and 0 <= b <= 1023, and R137 maps no
other call, so outside those bounds there is no command: DESIGN CHOICE, log 19. -/
def updateInstr (len : Nat) (bitlen : Option Nat) : Option Instr :=
  match bitlen with
  | none => if len ≤ Config.dinBytes then some (.update (BitVec.ofNat 7 len) false 0) else none
  | some b =>
    if len ≤ Config.dinBytes ∧ b < 2 ^ 10 then some (.update (BitVec.ofNat 7 len) true (BitVec.ofNat 10 b)) else none

/-- `LOADDIN bytes; RUN UPDATE len(bytes), bitlen=bitlen` (R78), where both exist. -/
def hostChunk (c : Config) (bytes : ByteSeq) (bitlen : Option Nat) : Option (List HostOp) :=
  (hostLOADDIN c bytes).bind fun load => (updateInstr bytes.length bitlen).map fun i => load ++ hostRUN c i

/-- The bit length left after a full 64-byte chunk (R137): `b - 512`, and none where that is negative, which has no encoding
(DESIGN CHOICE, log 19). The outer option is "no sequence", the inner one "no bit length given". -/
def bitlenAfterBlock : Option Nat → Option (Option Nat)
  | none => some none
  | some b => if 512 ≤ b then some (some (b - 512)) else none

/-- The commands of a source call: a 64-byte chunk while more than 64 bytes remain, DIN reloaded before each, then one UPDATE
that carries the rest of the bit length (R78, R137). The fuel bounds the number of commands before the last. -/
def hostUpdateCall (c : Config) : Nat → ByteSeq → Option Nat → Option (List HostOp)
  | 0, bytes, bitlen => hostChunk c bytes bitlen
  | n + 1, bytes, bitlen =>
    if 64 < bytes.length then
      (hostChunk c (bytes.take 64) none).bind fun first =>
        (bitlenAfterBlock bitlen).bind fun b => (hostUpdateCall c n (bytes.drop 64) b).map fun rest => first ++ rest
    else hostChunk c bytes bitlen

/-- The source's `update(bytes, bitlen)` as host operations (R78, R137); the length is fuel enough. It is none exactly where the
last chunk's bit length has no encoding (log 19). A call that R132 rejects but whose last chunk is encodable has its
sequence: the host that did not check meets INVALID_BIT_LENGTH on the last chunk (R241). -/
def hostUpdate (c : Config) (bytes : ByteSeq) (bitlen : Option Nat) : Option (List HostOp) :=
  hostUpdateCall c bytes.length bytes bitlen

/-- The check of R132 against a whole source call of `len` bytes, on numbers without bound: the bits it contributes, or none
where the call is invalid (R137, R241). -/
def callBits (len : Nat) (bitlen : Option Nat) : Option Nat :=
  match bitlen with
  | none => some (8 * len)
  | some b =>
    if b % 8 = 0 then if b = 8 * len then some b else none
    else if 8 * len < b + 8 ∧ b < 8 * len then some b else none

/-- The host that checks R132 against the whole call before it issues the first chunk, as R241 has it: an invalid call issues
nothing. -/
def hostCheckedUpdate (c : Config) (bytes : ByteSeq) (bitlen : Option Nat) : Option (List HostOp) :=
  if (callBits bytes.length bitlen).isSome then hostUpdate c bytes bitlen else none

end Sys2Proof.Machine
end

