-- ==== Sys2Proof/Safety.lean ====
section
/-! DEFINITION. What counts as a safe state, and the terms claims are stated in: the invariant of 10_state.md R27, the
working registers of R111 round by round, and SHA-256 of a message of any number of bits (00_scope.md R11, 42_finalize.md
R158), written independently of the engine's padding. -/

namespace Sys2Proof.Machine

/-! ## The invariant -/

/-- R27 for a LIVE engine; an engine in FATAL mode is never safe (R157, R204). -/
def Engine.Inv : Engine → Prop
  | .live _ t cache => cache.length = expectedLen t.toNat
  | .final _ _ => True
  | .fatal => False

/-- A safe state: its engine is. -/
def State.Inv (s : State) : Prop := s.eng.Inv

/-- `eng.T`, in the modes that have it (R20). -/
def Engine.counter : Engine → Option DWord
  | .live _ t _ => some t
  | .final _ t => some t
  | .fatal => none

/-! ## Who moves next -/

/-- The engine moves next, and `ts` is the schedule after its turn (R236, logs 1, 2). -/
def EngineNext (s : State) (ts : List Turn) : Prop :=
  s.turns = .engine :: ts ∨ (s.turns = [] ∧ ts = [] ∧ s.pending ≠ none)

/-- The host moves next, and `ts` is the schedule after its turn (R236, logs 1, 2). -/
def HostNext (s : State) (ts : List Turn) : Prop :=
  s.turns = .host :: ts ∨ (s.turns = [] ∧ ts = [] ∧ s.pending = none)

/-- The reserved offsets of R40. -/
def ReservedOffset (off : Nat) : Prop :=
  (0x008 ≤ off ∧ off < 0x040) ∨ (0x0A0 ≤ off ∧ off < 0x100) ∨ (0x110 ≤ off ∧ off < 0x120) ∨ (0x180 ≤ off ∧ off < 0x200)

/-! ## The rounds, one by one (R111) -/

/-- The working registers a to h after the first `t` rounds, with K[t] and W[t] by index (R111). -/
def workAfter (v : Vector Word 8) (blk : ByteSeq) : Nat → Work
  | 0 => ⟨v[0], v[1], v[2], v[3], v[4], v[5], v[6], v[7]⟩
  | t + 1 =>
    let r := workAfter v blk t
    let t1 := r.h + bigSigma1 r.e + ch r.e r.f r.g + roundConstants.getD t 0 + (schedule blk).getD t 0
    let t2 := bigSigma0 r.a + maj r.a r.b r.c
    { h := r.g, g := r.f, f := r.e, e := r.d + t1, d := r.c, c := r.b, b := r.a, a := t1 + t2 }

/-! ## Messages as bits (R11) -/

/-- The bits of a byte, most significant first (R11, R54). -/
def byteBits (b : Byte) : List Bool :=
  [b.getLsbD 7, b.getLsbD 6, b.getLsbD 5, b.getLsbD 4, b.getLsbD 3, b.getLsbD 2, b.getLsbD 1, b.getLsbD 0]

/-- The bits of a byte sequence: message bit j is bit 7 - (j mod 8) of byte j div 8 (R11). -/
def bitsOf (s : ByteSeq) : List Bool := s.flatMap byteBits

/-- The byte of 8 bits, the first the most significant. -/
def byteOfBits (b7 b6 b5 b4 b3 b2 b1 b0 : Bool) : Byte :=
  BitVec.ofBool b7 ++ BitVec.ofBool b6 ++ BitVec.ofBool b5 ++ BitVec.ofBool b4 ++
    BitVec.ofBool b3 ++ BitVec.ofBool b2 ++ BitVec.ofBool b1 ++ BitVec.ofBool b0

/-- The bytes of a bit sequence whose length is a multiple of 8. -/
def bytesOfBits : List Bool → ByteSeq
  | b7 :: b6 :: b5 :: b4 :: b3 :: b2 :: b1 :: b0 :: rest => byteOfBits b7 b6 b5 b4 b3 b2 b1 b0 :: bytesOfBits rest
  | _ => []

/-- The number of `0` bits of the padding: the fewest that bring `k + 1` bits to 448 mod 512 (R158). -/
def padZeros (k : Nat) : Nat := (959 - k % 512) % 512

/-- The padded message: its bits, one `1` bit, the fewest `0` bits, the length as 64 big-endian bits (R158). -/
def padMessage (m : List Bool) : List Bool :=
  m ++ true :: List.replicate (padZeros m.length) false ++ bitsOf (be64Bytes (BitVec.ofNat 64 m.length))

/-- SHA-256 of a message of any number of bits (R158). -/
def sha256 (m : List Bool) : Vector Word 8 :=
  compressBlocks ((padMessage m).length / 512) initialH (bytesOfBits (padMessage m))

/-- The engine holds the message whose `k` bits stand in `bytes` (R11): it is LIVE, it has counted `k` bits, the whole
blocks before the cache are compressed into H from IV, and the cache is the rest of the bytes as supplied (R22). -/
def Engine.Holds (bytes : ByteSeq) (k : Nat) : Engine → Prop
  | .live h t cache =>
    t.toNat = k ∧ bytes.length = (k + 7) / 8 ∧ cache.length = expectedLen k ∧
      ∃ n, 64 * n + cache.length = bytes.length ∧ h = compressBlocks n initialH bytes ∧ cache = bytes.drop (64 * n)
  | .final _ _ => False
  | .fatal => False

end Sys2Proof.Machine
end

