-- ==== Sys2Proof/Certificates/Slice0/Obligations.lean ====
section
/-! DEFINITION. The statements for the provers. Each docstring names the rule of spec/ it rests on. `{ s with ... }` on the
right of an outcome states the whole frame: every field not named is as it was in `s`. The examples and tables a rule marks
"derived" follow from its formulas; where they are stated, it is beside those. -/

open Sys2Proof Sys2Proof.Machine

/-! ## Encoding -/

/-- R77: the encoding functions, for every operand, and the table of encodings. -/
def Obligations.EncodingFunctions : Prop :=
  encode .init = 0x00000001 ∧ encode .digest = 0x00000003 ∧ encode .exportCk = 0x00000004 ∧
  encode .importCk = 0x00000005 ∧
  (∀ n : BitVec 7, encode (.update n false 0) = 0x00000002 ||| (n.setWidth 32 <<< 8)) ∧
  (∀ (n : BitVec 7) (b : BitVec 10), encode (.update n true b) =
    0x00000002 ||| (n.setWidth 32 <<< 8) ||| (1 <<< 15) ||| (b.setWidth 32 <<< 16)) ∧
  encode (.update 0 false 0) = 0x00000002 ∧ encode (.update 1 false 0) = 0x00000102 ∧
  encode (.update 3 false 0) = 0x00000302 ∧ encode (.update 64 false 0) = 0x00004002 ∧
  encode (.update 0 true 0) = 0x00008002 ∧ encode (.update 1 true 1) = 0x00018102 ∧
  encode (.update 1 true 2) = 0x00028102 ∧ encode (.update 1 true 8) = 0x00088102 ∧
  encode (.update 64 true 511) = 0x01FFC002 ∧ encode (.update 64 true 512) = 0x0200C002

/-- Words written out from the spec's encodings decode to the commands they stand for (R70, R76, the table of
95_test_vectors.md section 2.3). A sanity statement. -/
def Obligations.SampleWordsDecode : Prop :=
  decode 0x00000001 = .ok .init ∧ decode 0x00000302 = .ok (.update 3 false 0) ∧
  decode 0x01FFC002 = .ok (.update 64 true 511) ∧ decode 0x03FFC002 = .ok (.update 64 true 1023) ∧
  decode 0x00088202 = .ok (.update 2 true 8) ∧ decode 0x00000003 = .ok .digest ∧
  decode 0x00000004 = .ok .exportCk ∧ decode 0x00000005 = .ok .importCk ∧
  decode 0x00000000 = .error .reservedOp ∧ decode 0x0000000F = .error .reservedOp ∧
  decode 0x00000011 = .error .rsv0 ∧ decode 0x00000101 = .error .operandBits ∧
  decode 0x80000003 = .error .operandBits ∧ decode 0x04000002 = .error .rsv1 ∧
  decode 0x00004102 = .error .lenTooLarge ∧ decode 0x00010002 = .error .bitlenWithoutBlv

/-- The decoder reads back every well-formed command the encoder writes, with every operand at every value (R70, R76,
R77). -/
def Obligations.DecodeOfEncode : Prop :=
  ∀ i : Instr, i.wellFormed = true → decode (encode i) = .ok i

/-- Each legal word is the encoding of exactly the command it decodes to, and that command is well formed (R73, R74: every
word decodes to exactly one command or to "illegal"). -/
def Obligations.EncodeOfDecode : Prop :=
  ∀ (w : Word) (i : Instr), decode w = .ok i → i.wellFormed = true ∧ encode i = w

/-- R76: the decoder, line by line, on the number the word is. -/
def Obligations.DecoderReadsTheFields : Prop :=
  ∀ w : Word,
    (decode w = .ok .init ↔ w.toNat = 1) ∧ (decode w = .ok .digest ↔ w.toNat = 3) ∧
    (decode w = .ok .exportCk ↔ w.toNat = 4) ∧ (decode w = .ok .importCk ↔ w.toNat = 5) ∧
    (∀ len blv bitlen, decode w = .ok (.update len blv bitlen) ↔
      w.toNat % 2 ^ 4 = 2 ∧ w.toNat / 2 ^ 4 % 2 ^ 4 = 0 ∧ w.toNat / 2 ^ 26 = 0 ∧
      len.toNat = w.toNat / 2 ^ 8 % 2 ^ 7 ∧ len.toNat ≤ 64 ∧ blv = decide (w.toNat / 2 ^ 15 % 2 = 1) ∧
      bitlen.toNat = w.toNat / 2 ^ 16 % 2 ^ 10 ∧ (blv = true ∨ bitlen.toNat = 0))

/-- R74: a word is illegal exactly when one of the clauses (a) to (f) holds; and R193: it then commits with code 5 and
changes nothing else, in every mode. -/
def Obligations.IllegalWordsCommitWithCode5 : Prop :=
  ∀ w : Word,
    ((∃ e, decode w = .error e) ↔
      (w.toNat % 2 ^ 4 = 0 ∨ 6 ≤ w.toNat % 2 ^ 4) ∨ w.toNat / 2 ^ 4 % 2 ^ 4 ≠ 0 ∨
      (w.toNat % 2 ^ 4 ≠ 2 ∧ w.toNat / 2 ^ 8 ≠ 0) ∨ (w.toNat % 2 ^ 4 = 2 ∧ w.toNat / 2 ^ 26 ≠ 0) ∨
      (w.toNat % 2 ^ 4 = 2 ∧ 64 < w.toNat / 2 ^ 8 % 2 ^ 7) ∨
      (w.toNat % 2 ^ 4 = 2 ∧ w.toNat / 2 ^ 15 % 2 = 0 ∧ w.toNat / 2 ^ 16 % 2 ^ 10 ≠ 0)) ∧
    (∀ e s, decode w = .error e → commit w s = .next { s with err := .invalidCommand, pending := none })

/-! ## The step -/

/-- When the engine moves and the pending word decodes to a command, the step is that command's meaning, the turn being
used up; an illegal word commits as INVALID (R190). -/
def Obligations.StepCommitsTheDecodedCommand : Prop :=
  ∀ (s : State) (ts : List Turn) (w : Word), EngineNext s ts → s.pending = some w →
    (∀ i, decode w = .ok i → step s = exec i (s.withTurns ts)) ∧
    (∀ e, decode w = .error e → step s = .next { s with turns := ts, err := .invalidCommand, pending := none })

/-- A command placed with `withFetchWord` is what the next step runs, on a state that differs only in the pending word. -/
def Obligations.PlacedCommandRunsNext : Prop :=
  ∀ (s : State) (i : Instr), i.wellFormed = true →
    decodeTableWord 32 (encode i).toNat = some i ∧
    step (s.withFetchWord 32 (encode i).toNat) = exec i { s with pending := some (encode i) }

/-- R236: whatever the schedule and the host, the engine comes to its commit of the pending command within the listed
turns, with the engine state, DIN and CK_* still as they were, unless the platform resets the block or a host access stops
the machine first. The schedule and the engine's priority when it runs out are the model's choice (logs 1, 2). -/
def Obligations.PendingCommandComesToItsCommit : Prop :=
  ∀ (s : State) (w : Word), s.pending = some w →
    ∃ (k : Nat) (u : State), k ≤ s.turns.length ∧ Host.Core.run Sys2Proof.core k s = .next u ∧
      u.pending = some w ∧ u.eng = s.eng ∧ u.din = s.din ∧ u.ck = s.ck ∧ u.err = s.err ∧
      (step u = commit w (u.withTurns u.turns.tail) ∨ u.turns.head? = some .reset ∨ ∀ x, step u ≠ .next x)

/-- While a command is pending, no host access changes it, its operands, the engine or the last result; the overrun flag can
only rise (R41, R63, R206, R235). -/
def Obligations.HostCannotTouchAPendingCommand : Prop :=
  ∀ (s t : State) (ts : List Turn), s.pending ≠ none → s.turns = .host :: ts → step s = .next t →
    t.pending = s.pending ∧ t.din = s.din ∧ t.ck = s.ck ∧ t.eng = s.eng ∧ t.err = s.err ∧ t.turns = ts ∧
    (s.ovr = true → t.ovr = true)

/-- R44, R231: the state after reset, field by field and through the window. -/
def Obligations.ResetLeavesTheseValues : Prop :=
  State.reset.eng = .live initialH 0 [] ∧ State.reset.pending = none ∧ State.reset.ovr = false ∧
  State.reset.err = .ok ∧ (∀ i : Fin 16, State.reset.din[i] = 0) ∧ State.reset.ck.shape = 0 ∧
  State.reset.ck.cacheLen = 0 ∧ State.reset.ck.totalLo = 0 ∧ State.reset.ck.totalHi = 0 ∧
  (∀ i : Fin 8, State.reset.ck.h[i] = 0) ∧ (∀ i : Fin 16, State.reset.ck.cache[i] = 0) ∧
  ∀ r : Reg, readReg r State.reset = 0

/-- R230: the platform's reset gives the values of R44 from every state, whatever is pending: a pending command is abandoned
with none of its effects. Which step is the reset is the model's schedule, and the host's account stays (logs 1, 14). -/
def Obligations.PlatformResetAbandonsThePendingCommand : Prop :=
  ∀ (s : State) (ts : List Turn), s.turns = .reset :: ts →
    ∃ t, step s = .next t ∧ t.eng = .live initialH 0 [] ∧ t.pending = none ∧ t.ovr = false ∧ t.err = .ok ∧
      (∀ i : Fin 16, t.din[i] = 0) ∧ t.ck.shape = 0 ∧ t.ck.cacheLen = 0 ∧ t.ck.totalLo = 0 ∧ t.ck.totalHi = 0 ∧
      (∀ i : Fin 8, t.ck.h[i] = 0) ∧ (∀ i : Fin 16, t.ck.cache[i] = 0) ∧ (∀ r : Reg, readReg r t = 0) ∧
      t.config = s.config ∧ t.host = s.host ∧ t.reads = s.reads ∧ t.turns = ts

/-! ## The register window -/

/-- R194: an aligned 32-bit read in the window returns the register's value and changes nothing but the host's account. -/
def Obligations.HostReadReturnsTheRegister : Prop :=
  ∀ (s : State) (ts : List Turn) (rest : List HostOp) (off : Nat), HostNext s ts → off < 0x200 → off % 4 = 0 →
    s.host = .read (s.config.shaBase + off) .w32 :: rest →
    ∃ v : Word,
      step s = .next { s with turns := ts, host := rest, reads := ⟨s.config.shaBase + off, v⟩ :: s.reads } ∧
      (off = 0x000 → v = 0) ∧ (off = 0x004 → v = statusWord s) ∧
      (∀ i : Fin 16, off = 0x040 + 4 * i.val → v = s.din[i]) ∧
      (∀ i : Fin 8, off = 0x080 + 4 * i.val → (∀ d t, s.eng = .final d t → v = d[i]) ∧
        ((∀ d t, s.eng ≠ .final d t) → v = 0)) ∧
      (off = 0x100 → v = s.ck.shape.setWidth 32) ∧ (off = 0x104 → v = s.ck.cacheLen.setWidth 32) ∧
      (off = 0x108 → v = s.ck.totalLo) ∧ (off = 0x10C → v = s.ck.totalHi) ∧
      (∀ i : Fin 8, off = 0x120 + 4 * i.val → v = s.ck.h[i]) ∧
      (∀ i : Fin 16, off = 0x140 + 4 * i.val → v = s.ck.cache[i]) ∧
      (ReservedOffset off → v = 0)

/-- R195: an aligned 32-bit write in the window. With no command pending a write to CMD starts one and a write to DIN or
CK_* stores (CK_SHAPE keeps bit 0, CK_CACHE_LEN bits 6:0); with one pending those writes are discarded and set OVR (R41);
STATUS, RESULT and reserved offsets ignore writes (R40). -/
def Obligations.HostWriteStoresOrIsDiscarded : Prop :=
  ∀ (s : State) (ts : List Turn) (rest : List HostOp) (off : Nat) (v : Word), HostNext s ts → off < 0x200 →
    off % 4 = 0 → s.host = .write (s.config.shaBase + off) .w32 v :: rest →
    (s.pending = none →
      (off = 0x000 → step s = .next { s with turns := ts, host := rest, pending := some v }) ∧
      (∀ i : Fin 16, off = 0x040 + 4 * i.val →
        step s = .next { s with turns := ts, host := rest, din := s.din.set i v }) ∧
      (off = 0x100 →
        step s = .next { s with turns := ts, host := rest, ck := { s.ck with shape := v.extractLsb' 0 1 } }) ∧
      (off = 0x104 →
        step s = .next { s with turns := ts, host := rest, ck := { s.ck with cacheLen := v.extractLsb' 0 7 } }) ∧
      (off = 0x108 → step s = .next { s with turns := ts, host := rest, ck := { s.ck with totalLo := v } }) ∧
      (off = 0x10C → step s = .next { s with turns := ts, host := rest, ck := { s.ck with totalHi := v } }) ∧
      (∀ i : Fin 8, off = 0x120 + 4 * i.val →
        step s = .next { s with turns := ts, host := rest, ck := { s.ck with h := s.ck.h.set i v } }) ∧
      (∀ i : Fin 16, off = 0x140 + 4 * i.val →
        step s = .next { s with turns := ts, host := rest, ck := { s.ck with cache := s.ck.cache.set i v } })) ∧
    (s.pending ≠ none →
      off = 0x000 ∨ (0x040 ≤ off ∧ off < 0x080) ∨ (0x100 ≤ off ∧ off < 0x110) ∨ (0x120 ≤ off ∧ off < 0x180) →
      step s = .next { s with turns := ts, host := rest, ovr := true }) ∧
    (off = 0x004 ∨ (0x080 ≤ off ∧ off < 0x0A0) ∨ ReservedOffset off →
      step s = .next { s with turns := ts, host := rest })

/-- R32: the fields of STATUS as a read returns them. -/
def Obligations.StatusReadsItsFields : Prop :=
  ∀ s : State,
    (readReg .status s).getLsbD 0 = s.pending.isSome ∧
    (∀ h t c, s.eng = .live h t c →
      (readReg .status s).extractLsb' 1 2 = if t.toNat % 8 = 0 then 0#2 else 1#2) ∧
    (∀ d t, s.eng = .final d t → (readReg .status s).extractLsb' 1 2 = 2#2) ∧
    (s.eng = .fatal → (readReg .status s).extractLsb' 1 2 = 3#2) ∧
    (readReg .status s).getLsbD 3 = s.ovr ∧
    (s.err = .ok → (readReg .status s).extractLsb' 4 4 = 0#4) ∧
    (s.err = .invalidBitLength → (readReg .status s).extractLsb' 4 4 = 1#4) ∧
    (s.err = .lateUpdateAfterPartialByte → (readReg .status s).extractLsb' 4 4 = 2#4) ∧
    (s.err = .corruptPaddingState → (readReg .status s).extractLsb' 4 4 = 3#4) ∧
    (s.err = .updateAfterDigest → (readReg .status s).extractLsb' 4 4 = 4#4) ∧
    (s.err = .invalidCommand → (readReg .status s).extractLsb' 4 4 = 5#4) ∧
    (s.err = .invalidCheckpoint → (readReg .status s).extractLsb' 4 4 = 6#4) ∧
    (readReg .status s).extractLsb' 8 24 = 0#24

/-- With no command pending, a register with storage reads back what was written, within the bits it keeps, and every other
register reads as before (R33, R35 to R39). -/
def Obligations.ReadAfterWrite : Prop :=
  ∀ (s : State) (r : Reg) (v : Word), s.pending = none → r ≠ .cmd → r ≠ .status → r ≠ .reserved →
    (∀ i, r ≠ .result i) →
    readReg r (writeReg r v s) = (if r = .ckShape then v &&& 0x1 else if r = .ckCacheLen then v &&& 0x7F else v) ∧
    ∀ r', r' ≠ r → readReg r' (writeReg r v s) = readReg r' s

/-- The map of R30, every offset by its number: every register stands at its own offset, a multiple of 4 in the window, and what is listed nowhere is
reserved (R40). -/
def Obligations.RegisterMap : Prop :=
  (∀ r : Reg, regAt (regOffset r) = r ∧ regOffset r < 0x200 ∧ regOffset r % 4 = 0) ∧
  regOffset .cmd = 0x000 ∧ regOffset .status = 0x004 ∧ regOffset .ckShape = 0x100 ∧ regOffset .ckCacheLen = 0x104 ∧
  regOffset .ckTotalLo = 0x108 ∧ regOffset .ckTotalHi = 0x10C ∧
  (∀ i : Fin 16, regOffset (.din i) = 0x040 + 4 * i.val ∧ regOffset (.ckCache i) = 0x140 + 4 * i.val) ∧
  (∀ i : Fin 8, regOffset (.result i) = 0x080 + 4 * i.val ∧ regOffset (.ckH i) = 0x120 + 4 * i.val) ∧
  (∀ off, off < 0x200 → off % 4 = 0 → (regAt off = .reserved ↔ ReservedOffset off))

/-- R55, R216 (b): a host access that is not of 32 bits, or not aligned, has no step. An access outside the window is a
fault of the model (log 7). -/
def Obligations.UnsupportedAccessHasNoStep : Prop :=
  ∀ (s : State) (ts : List Turn) (rest : List HostOp) (addr : Nat) (width : AccessWidth) (v : Word), HostNext s ts →
    (s.host = .read addr width :: rest ∨ s.host = .write addr width v :: rest) →
    (addr < s.config.shaBase ∨ s.config.shaBase + 0x200 ≤ addr → step s = .fault .noSuchAddress) ∧
    (s.config.shaBase ≤ addr → addr < s.config.shaBase + 0x200 → width ≠ .w32 → step s = .refused .unsupportedWidth) ∧
    (s.config.shaBase ≤ addr → addr < s.config.shaBase + 0x200 → width = .w32 → addr % 4 ≠ 0 →
      step s = .refused .misaligned)

/-- WAIT reads STATUS and is done again exactly while the BUSY bit it read is 1 (R78). Each poll is one bus access. -/
def Obligations.WaitPollsWhileBusy : Prop :=
  ∀ (s : State) (ts : List Turn) (rest : List HostOp), HostNext s ts → s.host = .wait :: rest →
    (s.pending = none → (statusWord s).getLsbD 0 = false ∧ step s = .next
      { s with turns := ts, host := rest, reads := ⟨s.config.shaBase + 4, statusWord s⟩ :: s.reads }) ∧
    (s.pending ≠ none → (statusWord s).getLsbD 0 = true ∧ step s = .next
      { s with turns := ts, host := .wait :: rest, reads := ⟨s.config.shaBase + 4, statusWord s⟩ :: s.reads })

/-- `RUN <mnemonic>` (R78) from an idle engine: the word is written to CMD, the command commits, and WAIT ends with BUSY read
as 0. The order of the three turns is the model's default schedule (log 2). -/
def Obligations.RunWritesCommitsAndWaits : Prop :=
  ∀ (s t : State) (i : Instr) (rest : List HostOp), i.wellFormed = true → s.turns = [] → s.pending = none →
    s.host = hostRUN s.config i ++ rest →
    exec i { s with host := .wait :: rest, pending := some (encode i) } = .next t →
    Host.Core.run Sys2Proof.core 3 s =
      .next { t with host := rest, reads := ⟨s.config.shaBase + 4, statusWord t⟩ :: t.reads } ∧
    (statusWord t).getLsbD 0 = false

/-- `LOADDIN <bytes>` (R78) on an idle engine: word i of DIN, for i below ceil(len/4), takes the i-th four bytes, the first the
most significant, with zeros for the bytes the last group lacks; every other DIN word and every other field stays, and
`din_bytes` begins with the bytes. -/
def Obligations.LoadDinPlacesTheBytes : Prop :=
  ∀ (s : State) (bytes : ByteSeq) (rest : List HostOp), bytes.length ≤ 64 →
    ∃ ops, hostLOADDIN s.config bytes = some ops ∧
    (s.turns = [] → s.pending = none → s.host = ops ++ rest →
      ∃ d : Vector Word 16,
        Host.Core.run Sys2Proof.core ((bytes.length + 3) / 4) s = .next { s with host := rest, din := d } ∧
        (∀ i : Fin 16, i.val < (bytes.length + 3) / 4 → d[i] =
          bytes.getD (4 * i.val) 0 ++ bytes.getD (4 * i.val + 1) 0 ++ bytes.getD (4 * i.val + 2) 0 ++
            bytes.getD (4 * i.val + 3) 0) ∧
        (∀ i : Fin 16, (bytes.length + 3) / 4 ≤ i.val → d[i] = s.din[i]) ∧
        (windowBytes d).take bytes.length = bytes)

/-! ## The compression function -/

/-- R103 and R104: `ch` selects bit by bit, `maj` is the majority bit by bit, with the rules' examples. -/
def Obligations.ChoiceAndMajorityBits : Prop :=
  (∀ (x y z : Word) (i : Nat), i < 32 →
    (ch x y z).getLsbD i = (if x.getLsbD i then y.getLsbD i else z.getLsbD i) ∧
    ((maj x y z).getLsbD i = true ↔
      2 ≤ (x.getLsbD i).toNat + (y.getLsbD i).toNat + (z.getLsbD i).toNat)) ∧
  (∀ x y z : Word, ch x y z = (x &&& y) ^^^ (~~~x &&& z) ∧ maj x y z = (x &&& y) ^^^ (x &&& z) ^^^ (y &&& z)) ∧
  ch 0xff00ff00 0x12345678 0x9abcdef0 = 0x12bc56f0 ∧ maj 0xff00ff00 0x12345678 0x9abcdef0 = 0x9a34de70

/-- R105 to R108, with ROTR and SHR of R9, bit by bit: ROTR(x, n) takes bit i from bit (i + n) mod 32, SHR(x, n) from bit
i + n, with zeros at the top; and the rules' examples. -/
def Obligations.MixingFunctionBits : Prop :=
  (∀ (x : Word) (i : Nat), i < 32 →
    (bigSigma0 x).getLsbD i = ((x.getLsbD ((i + 2) % 32) ^^ x.getLsbD ((i + 13) % 32)) ^^ x.getLsbD ((i + 22) % 32)) ∧
    (bigSigma1 x).getLsbD i = ((x.getLsbD ((i + 6) % 32) ^^ x.getLsbD ((i + 11) % 32)) ^^ x.getLsbD ((i + 25) % 32)) ∧
    (smallSigma0 x).getLsbD i =
      ((x.getLsbD ((i + 7) % 32) ^^ x.getLsbD ((i + 18) % 32)) ^^ (decide (i + 3 < 32) && x.getLsbD (i + 3))) ∧
    (smallSigma1 x).getLsbD i =
      ((x.getLsbD ((i + 17) % 32) ^^ x.getLsbD ((i + 19) % 32)) ^^ (decide (i + 10 < 32) && x.getLsbD (i + 10)))) ∧
  bigSigma0 0x00000001 = 0x40080400 ∧ bigSigma1 0x00000001 = 0x04200080 ∧
  smallSigma0 0x00000001 = 0x02004000 ∧ smallSigma1 0x00000001 = 0x0000a000

/-- R110: the schedule of a 64-byte block, word by word. -/
def Obligations.ScheduleRecurrence : Prop :=
  ∀ blk : ByteSeq, blk.length = 64 →
    (schedule blk).length = 64 ∧
    (∀ t, t < 16 → (schedule blk).getD t 0 =
      blk.getD (4 * t) 0 ++ blk.getD (4 * t + 1) 0 ++ blk.getD (4 * t + 2) 0 ++ blk.getD (4 * t + 3) 0) ∧
    (∀ t, 16 ≤ t → t < 64 → (schedule blk).getD t 0 =
      smallSigma1 ((schedule blk).getD (t - 2) 0) + (schedule blk).getD (t - 7) 0 +
        smallSigma0 ((schedule blk).getD (t - 15) 0) + (schedule blk).getD (t - 16) 0)

/-- R111: `compress` adds the working registers after 64 rounds into H word by word, with the rule's worked example. -/
def Obligations.CompressionIsSixtyFourRounds : Prop :=
  (∀ (h : Vector Word 8) (blk : ByteSeq), blk.length = 64 →
    compress h blk =
      #v[h[0] + (workAfter h blk 64).a, h[1] + (workAfter h blk 64).b, h[2] + (workAfter h blk 64).c,
         h[3] + (workAfter h blk 64).d, h[4] + (workAfter h blk 64).e, h[5] + (workAfter h blk 64).f,
         h[6] + (workAfter h blk 64).g, h[7] + (workAfter h blk 64).h]) ∧
  compress initialH (zeros 64) =
    #v[0xda5698be, 0x17b9b469, 0x62335799, 0x779fbeca, 0x8ce5d491, 0xc0d26243, 0xbafef9ea, 0x1837a9d8]

/-- R102: K[i] is the first 32 bits of the fractional part of the cube root of the i-th prime, IV[i] of the square root.
The i-th prime, from 0, is the prime with i primes below it; `x` is the root times 2^32, rounded down. -/
def Obligations.ConstantsAreRootFractions : Prop :=
  (∀ p i : Nat, p.Prime → Nat.count Nat.Prime p = i → i < 64 →
    ∃ x : Nat, x ^ 3 ≤ p * 2 ^ 96 ∧ p * 2 ^ 96 < (x + 1) ^ 3 ∧
      roundConstants.getD i 0 = BitVec.ofNat 32 (x % 2 ^ 32)) ∧
  (∀ p i : Nat, p.Prime → Nat.count Nat.Prime p = i → i < 8 →
    ∃ x : Nat, x ^ 2 ≤ p * 2 ^ 64 ∧ p * 2 ^ 64 < (x + 1) ^ 2 ∧
      initialH.toList.getD i 0 = BitVec.ofNat 32 (x % 2 ^ 32))

/-- The byte order of the window, both ways: byte 4i + j of a 16-word window is bits 31 - 8j to 24 - 8j of word i (R33,
R39, R53), and packing 64 bytes into words loses none of them. -/
def Obligations.WindowByteOrder : Prop :=
  (∀ v : Vector Word 16, (windowBytes v).length = 64 ∧
    ∀ (i : Fin 16) (j : Nat), j < 4 → (windowBytes v).getD (4 * i.val + j) 0 = v[i].extractLsb' (24 - 8 * j) 8) ∧
  (∀ p : ByteSeq, p.length ≤ 64 → windowBytes (packBytes p) = p ++ zeros (64 - p.length)) ∧
  (∀ v : Vector Word 16, packBytes (windowBytes v) = v)

/-! ## INIT -/

/-- R191 and R192: INIT completes in every mode, with a fresh engine equal to the one after reset, OVR and ERRCODE cleared,
STATUS and RESULT reading 0, and every other field as it was. -/
def Obligations.InitGivesAFreshEngine : Prop :=
  ∀ s : State, ∃ t, exec .init s = .next t ∧
    t = { s with eng := .live initialH 0 [], ovr := false, err := .ok, pending := none } ∧
    t.eng = State.reset.eng ∧ readReg .status t = 0 ∧ ∀ i, readReg (.result i) t = 0

/-! ## UPDATE -/

/-- R131: the checks of UPDATE in their order (FATAL, FINAL, partial, bit length, then the empty input), each failing with
its code and no other effect. -/
def Obligations.UpdateChecksInOrder : Prop :=
  ∀ (s : State) (len : BitVec 7) (blv : Bool) (bitlen : BitVec 10),
    (s.eng = .fatal →
      exec (.update len blv bitlen) s = .next { s with err := .corruptPaddingState, pending := none }) ∧
    (∀ d t, s.eng = .final d t →
      exec (.update len blv bitlen) s = .next { s with err := .updateAfterDigest, pending := none }) ∧
    (∀ h t c, s.eng = .live h t c → t.toNat % 8 ≠ 0 →
      exec (.update len blv bitlen) s = .next { s with err := .lateUpdateAfterPartialByte, pending := none }) ∧
    (∀ h t c, s.eng = .live h t c → t.toNat % 8 = 0 → updateBits len blv bitlen = none →
      exec (.update len blv bitlen) s = .next { s with err := .invalidBitLength, pending := none }) ∧
    (∀ h t c, s.eng = .live h t c → t.toNat % 8 = 0 → updateBits len blv bitlen ≠ none → len = 0 →
      exec (.update len blv bitlen) s = .next { s with err := .ok, pending := none })

/-- R132: the bit count an UPDATE contributes and the bit lengths it rejects, on integers as the rule has them, and the
failure with code 1. That the range means `LEN = ceil(BITLEN / 8)` is the clause the rule marks as derived. -/
def Obligations.UpdateBitLengthCheck : Prop :=
  ∀ (len : BitVec 7) (bitlen : BitVec 10),
    updateBits len false bitlen = some (8 * len.toNat) ∧
    (bitlen.toNat % 8 = 0 →
      (bitlen.toNat = 8 * len.toNat → updateBits len true bitlen = some bitlen.toNat) ∧
      (bitlen.toNat ≠ 8 * len.toNat → updateBits len true bitlen = none)) ∧
    (bitlen.toNat % 8 ≠ 0 →
      ((8 * (len.toNat : Int) - 8 < bitlen.toNat ∧ (bitlen.toNat : Int) < 8 * len.toNat) ↔
        len.toNat = (bitlen.toNat + 7) / 8) ∧
      (len.toNat = (bitlen.toNat + 7) / 8 → updateBits len true bitlen = some bitlen.toNat) ∧
      (len.toNat ≠ (bitlen.toNat + 7) / 8 → updateBits len true bitlen = none)) ∧
    (∀ s h t c blv, s.eng = .live h t c → t.toNat % 8 = 0 → updateBits len blv bitlen = none →
      exec (.update len blv bitlen) s = .next { s with err := .invalidBitLength, pending := none })

/-- R135: an UPDATE of length 0 that passes the checks commits with ERRCODE 0 and changes nothing else, and the only such
commands are those with BLV = 0, or with BLV = 1 and BITLEN = 0. -/
def Obligations.EmptyUpdateIsANoOp : Prop :=
  (∀ (s : State) (h : Vector Word 8) (t : DWord) (c : ByteSeq) (blv : Bool) (bitlen : BitVec 10),
    s.eng = .live h t c → t.toNat % 8 = 0 → updateBits 0 blv bitlen ≠ none →
    exec (.update 0 blv bitlen) s = .next { s with err := .ok, pending := none }) ∧
  (∀ (blv : Bool) (bitlen : BitVec 10), updateBits 0 blv bitlen ≠ none ↔ (blv = false ∨ bitlen = 0))

/-- An accepted UPDATE of a safe LIVE engine completes: it appends the first LEN bytes of DIN, counts the bits, and
compresses at most one block, withholding a full block whose last byte is partial (R130, R133, R134, R138, R244). -/
def Obligations.UpdateAppendsCountsAndDrains : Prop :=
  ∀ (s : State) (h : Vector Word 8) (t : DWord) (cache : ByteSeq) (len : BitVec 7) (blv : Bool) (bitlen : BitVec 10)
    (n : Nat), s.Inv → s.eng = .live h t cache → t.toNat % 8 = 0 → (Instr.update len blv bitlen).wellFormed = true →
    updateBits len blv bitlen = some n → len ≠ 0 → t.toNat + n < 2 ^ 64 →
    ∃ h' t' c', exec (.update len blv bitlen) s =
        .next { s with eng := .live h' t' c', err := .ok, pending := none } ∧
      t'.toNat = t.toNat + n ∧ c'.length = expectedLen (t.toNat + n) ∧
      ∀ c, c = cache ++ (windowBytes s.din).take len.toNat →
        c.length = cache.length + len.toNat ∧
        (c.length < 64 → h' = h ∧ c' = c) ∧
        (c.length = 64 → n % 8 = 0 → h' = compress h c ∧ c' = []) ∧
        (c.length = 64 → n % 8 ≠ 0 → h' = h ∧ c' = c) ∧
        (64 < c.length → h' = compress h (c.take 64) ∧ c' = c.drop 64)

/-- R133: a count above 2^64 - 1 is a model fault, exactly there; no other command and no other UPDATE stops. -/
def Obligations.OnlyCounterOverflowFaults : Prop :=
  ∀ (s : State) (i : Instr),
    (exec i s = .fault .counterOverflow ↔
      ∃ len blv bitlen h t c n, i = .update len blv bitlen ∧ s.eng = .live h t c ∧ t.toNat % 8 = 0 ∧
        updateBits len blv bitlen = some n ∧ len ≠ 0 ∧ 2 ^ 64 ≤ t.toNat + n) ∧
    (exec i s ≠ .fault .counterOverflow → ∃ t, exec i s = .next t)

/-! ## What the commands write and read -/

/-- R42, the writes: what each command and an illegal word leave as it was when they commit. No command writes DIN; only
EXPORT writes CK_*; only INIT writes OVR; EXPORT and an illegal word change no engine field. -/
def Obligations.CommandsWriteOnlyTheirFields : Prop :=
  (∀ (i : Instr) (s t : State), exec i s = .next t →
    t.pending = none ∧ t.din = s.din ∧ t.config = s.config ∧ t.host = s.host ∧ t.reads = s.reads ∧
    t.turns = s.turns ∧ (i ≠ .exportCk → t.ck = s.ck) ∧ (i ≠ .init → t.ovr = s.ovr) ∧ (i = .exportCk → t.eng = s.eng)) ∧
  (∀ (s : State), execInvalid s = .next { s with err := .invalidCommand, pending := none })

/-- R42, the reads: the engine state, result code and record a command leaves depend only on the fields it reads. INIT reads
nothing; UPDATE the engine and DIN; DIGEST the engine and CLEAR_TRAILING_BITS; EXPORT the engine; IMPORT the CK_* registers
(and leaves the engine where it fails). -/
def Obligations.CommandsReadOnlyTheirFields : Prop :=
  ∀ (s s' t t' : State) (i : Instr), exec i s = .next t → exec i s' = .next t' →
    (i = .init → t.eng = t'.eng ∧ t.err = t'.err) ∧
    (∀ len blv bitlen, i = .update len blv bitlen → s.eng = s'.eng → s.din = s'.din →
      t.eng = t'.eng ∧ t.err = t'.err) ∧
    (i = .digest → s.eng = s'.eng → s.config.clearTrailingBits = s'.config.clearTrailingBits →
      t.eng = t'.eng ∧ t.err = t'.err) ∧
    (i = .exportCk → s.eng = s'.eng → t.err = t'.err ∧ (s.eng ≠ .fatal → t.ck = t'.ck)) ∧
    (i = .importCk → s.ck = s'.ck → t.err = t'.err ∧ (t.err = .ok → t.eng = t'.eng))

/-- R202: a command that ends with code 1, 2, 4, 5 or 6 changes no engine field, no CK_* register and no OVR; code 3 raised
in FATAL changes nothing either; code 3 elsewhere is DIGEST's move to FATAL; RESULT keeps its words on every error in FINAL
mode. -/
def Obligations.ErrorsDoNotCorrupt : Prop :=
  (∀ (i : Instr) (s t : State), exec i s = .next t → t.err ≠ .ok →
    (t.err ≠ .corruptPaddingState → t.eng = s.eng ∧ t.ck = s.ck ∧ t.ovr = s.ovr) ∧
    (t.err = .corruptPaddingState → s.eng = .fatal → t.eng = s.eng ∧ t.ck = s.ck ∧ t.ovr = s.ovr) ∧
    (t.err = .corruptPaddingState → s.eng ≠ .fatal → i = .digest ∧ t.eng = .fatal) ∧
    (∀ d n, s.eng = .final d n → t.eng = .final d n ∧ ∀ k, readReg (.result k) t = readReg (.result k) s)) ∧
  (∀ s t : State, execInvalid s = .next t → t.eng = s.eng ∧ t.ck = s.ck ∧ t.ovr = s.ovr)

/-! ## Messages -/

/-- Chunking equivalence (R137, the source's "regardless of how `m` is chunked"): absorbing a byte-aligned chunk `a` and
then a chunk `b` that holds `n` bits gives the engine that absorbing `a ++ b` at once gives, whatever their lengths. -/
def Obligations.ChunksAbsorbAsOne : Prop :=
  ∀ (h : Vector Word 8) (t : DWord) (cache a b : ByteSeq) (n : Nat), t.toNat % 8 = 0 →
    b.length = (n + 7) / 8 →
    ∃ h' t' c', absorb h t cache a (8 * a.length) = .live h' t' c' ∧
      absorb h' t' c' b n = absorb h t cache (a ++ b) (8 * a.length + n)

/-- After reset, and after INIT in any mode, the engine holds the empty message (R44, R191). -/
def Obligations.FreshEngineHoldsNothing : Prop :=
  State.reset.eng.Holds [] 0 ∧ ∀ s t, exec .init s = .next t → t.eng.Holds [] 0

/-- An UPDATE accepted by an engine that holds a byte-aligned message completes, and the engine then holds that message
followed by the chunk (R130, R133, R134, R137). -/
def Obligations.UpdateExtendsTheMessage : Prop :=
  ∀ (s : State) (bytes : ByteSeq) (k : Nat) (len : BitVec 7) (blv : Bool) (bitlen : BitVec 10) (n : Nat),
    s.eng.Holds bytes k → k % 8 = 0 → (Instr.update len blv bitlen).wellFormed = true →
    updateBits len blv bitlen = some n → k + n < 2 ^ 64 →
    ∃ t, exec (.update len blv bitlen) s = .next t ∧ t.err = .ok ∧
      t.eng.Holds (bytes ++ (windowBytes s.din).take len.toNat) (k + n)

/-- DIGEST of an engine that holds a message completes with SHA-256 of exactly the message's `k` bits, for every `k`,
byte-aligned or not, when CLEAR_TRAILING_BITS is true or the excess bits are zero (R158, the source's equivalence and
bit-truncation properties). -/
def Obligations.DigestIsSha256OfTheMessage : Prop :=
  ∀ (s : State) (bytes : ByteSeq) (k : Nat), s.eng.Holds bytes k →
    (s.config.clearTrailingBits = true ∨ ∀ b ∈ (bitsOf bytes).drop k, b = false) →
    exec .digest s = .next
      { s with eng := .final (sha256 ((bitsOf bytes).take k)) (BitVec.ofNat 64 k), err := .ok, pending := none }

/-- The whole source call (R137, R78): the host's sequence for `update(m, bitlen)` exists for every call R132 accepts, and from an
idle engine that holds a byte-aligned message it runs to an engine that holds that message followed by `m`, however many
chunks it takes. No turn is scheduled: the order of commits and accesses is the model's default (log 2). -/
def Obligations.HostUpdateExtendsTheMessage : Prop :=
  ∀ (s : State) (bytes m : ByteSeq) (k n : Nat) (bitlen : Option Nat) (rest : List HostOp), s.eng.Holds bytes k →
    k % 8 = 0 → callBits m.length bitlen = some n → k + n < 2 ^ 64 →
    ∃ ops, hostCheckedUpdate s.config m bitlen = some ops ∧
      (s.turns = [] → s.pending = none → s.host = ops ++ rest →
        ∃ (j : Nat) (t : State), Host.Core.run Sys2Proof.core j s = .next t ∧ t.eng.Holds (bytes ++ m) (k + n) ∧
          t.err = .ok ∧ t.pending = none ∧ t.host = rest ∧ t.turns = [] ∧ t.ovr = s.ovr ∧ t.ck = s.ck ∧
          t.config = s.config)

/-- CACHE_MAX (R7, R22): it is 128 bytes, a safe cache keeps at most 64, an append to a byte-aligned one makes at most 127, and a
padded cache at most 128; both are reached. -/
def Obligations.CacheFitsItsCapacity : Prop :=
  Config.cacheMax = 128 ∧
  (∀ (t : DWord) (c : ByteSeq), c.length = expectedLen t.toNat → c.length ≤ 64 ∧
    (∀ (s : State) (len : BitVec 7), t.toNat % 8 = 0 → lenLegal len = true → (c ++ chunk len s).length ≤ 127) ∧
    ∀ clear p, padCache clear t c = some p → p.length ≤ Config.cacheMax) ∧
  (∃ (t : DWord) (c : ByteSeq), c.length = expectedLen t.toNat ∧ t.toNat % 8 = 0 ∧
    ∀ s : State, (c ++ chunk 64 s).length = 127) ∧
  ∃ (t : DWord) (c : ByteSeq), c.length = expectedLen t.toNat ∧
    ∀ clear, ∃ p, padCache clear t c = some p ∧ p.length = Config.cacheMax

/-! ## DIGEST -/

/-- DIGEST of a safe LIVE engine completes: the padded cache is one or two blocks, they are compressed in order into the
digest, T is kept, and RESULT reads the digest (R150, R155, R157, R244). -/
def Obligations.DigestFinalizes : Prop :=
  ∀ (s : State) (h : Vector Word 8) (t : DWord) (c : ByteSeq), s.Inv → s.eng = .live h t c →
    ∃ p d u, padCache s.config.clearTrailingBits t c = some p ∧
      p.length = (if t.toNat % 512 < 448 then 64 else 128) ∧
      (p.length = 64 → d = compress h p) ∧
      (p.length = 128 → d = compress (compress h (p.take 64)) (p.drop 64)) ∧
      exec .digest s = .next u ∧ u = { s with eng := .final d t, err := .ok, pending := none } ∧
      ∀ i : Fin 8, readReg (.result i) u = d[i]

/-- R158: with CLEAR_TRAILING_BITS true, or the excess bits zero, the padded cache of a safe LIVE engine is the last `T mod
512` message bits, one `1` bit, the fewest `0` bits that make the length 448 mod 512, and T as 64 big-endian bits. -/
def Obligations.PaddedCacheIsTheStandardPadding : Prop :=
  ∀ (clear : Bool) (t : DWord) (c : ByteSeq), c.length = expectedLen t.toNat →
    (clear = true ∨ ∀ b ∈ (bitsOf c).drop (t.toNat % 512), b = false) →
    ∃ p z, padCache clear t c = some p ∧
      bitsOf p = (bitsOf c).take (t.toNat % 512) ++ true :: List.replicate z false ++ bitsOf (be64Bytes t) ∧
      (t.toNat % 512 + 1 + z) % 512 = 448 ∧ z < 512

/-- R153: a byte-aligned count gets a fresh 0x80 byte; otherwise the last byte changes: at shift `sh` its `sh` high bits are
kept, the padding bit `0x80 >> sh` is set, and the bits below are cleared when CLEAR_TRAILING_BITS, kept otherwise. With the
rule's table of masks. -/
def Obligations.PaddingBitIsSetAtTheShift : Prop :=
  (∀ (clear : Bool) (t : Nat) (c : ByteSeq) (last : Byte),
    (t % 8 = 0 → addPaddingBit clear t c = some (c ++ [0x80])) ∧
    (t % 8 ≠ 0 → addPaddingBit clear t (c ++ [last]) = some (c ++ [padPartialByte clear (t % 8) last]))) ∧
  (∀ (clear : Bool) (b : Byte) (sh j : Nat), 0 < sh → sh < 8 → j < 8 →
    (padPartialByte clear sh b).getLsbD (7 - j) =
      (if j < sh then b.getLsbD (7 - j) else if j = sh then true else (!clear && b.getLsbD (7 - j)))) ∧
  (∀ b : Byte,
    padPartialByte true 1 b = (b &&& 0x80) ||| 0x40 ∧ padPartialByte true 2 b = (b &&& 0xC0) ||| 0x20 ∧
    padPartialByte true 3 b = (b &&& 0xE0) ||| 0x10 ∧ padPartialByte true 4 b = (b &&& 0xF0) ||| 0x08 ∧
    padPartialByte true 5 b = (b &&& 0xF8) ||| 0x04 ∧ padPartialByte true 6 b = (b &&& 0xFC) ||| 0x02 ∧
    padPartialByte true 7 b = (b &&& 0xFE) ||| 0x01)

/-- R156: DIGEST in FINAL mode commits with ERRCODE 0 and changes nothing; RESULT keeps reading the same words. -/
def Obligations.DigestIsMemoized : Prop :=
  ∀ (s : State) (d : Vector Word 8) (t : DWord), s.eng = .final d t →
    ∃ u, exec .digest s = .next u ∧ u = { s with err := .ok, pending := none } ∧
      ∀ i : Fin 8, readReg (.result i) u = d[i]

/-- A LIVE cache whose padded length is not 64 or 128, or an empty cache of a partial state, moves DIGEST to FATAL with code
3 (R150, R154, R204). -/
def Obligations.CorruptPaddingEntersFatal : Prop :=
  ∀ (s : State) (h : Vector Word 8) (t : DWord) (c : ByteSeq), s.eng = .live h t c →
    ((t.toNat % 8 ≠ 0 ∧ c = []) ∨
      (∀ p, p = c.length + (if t.toNat % 8 = 0 then 1 else 0) +
          (if t.toNat % 512 < 448 then 55 - t.toNat % 512 / 8 else 119 - t.toNat % 512 / 8) + 8 →
        p ≠ 64 ∧ p ≠ 128)) →
    exec .digest s = .next { s with eng := .fatal, err := .corruptPaddingState, pending := none }

/-- R204: in FATAL mode UPDATE, DIGEST and EXPORT commit with code 3 and no effect, an illegal word with code 5, RESULT reads
0, and only INIT and a successful IMPORT leave FATAL. -/
def Obligations.FatalModeAnswers : Prop :=
  ∀ s : State, s.eng = .fatal →
    (∀ len blv bitlen, exec (.update len blv bitlen) s =
      .next { s with err := .corruptPaddingState, pending := none }) ∧
    exec .digest s = .next { s with err := .corruptPaddingState, pending := none } ∧
    exec .exportCk s = .next { s with err := .corruptPaddingState, pending := none } ∧
    (∀ w e, decode w = .error e → commit w s = .next { s with err := .invalidCommand, pending := none }) ∧
    (∀ i, readReg (.result i) s = 0) ∧
    (∀ i t, exec i s = .next t → t.eng ≠ .fatal → i = .init ∨ (i = .importCk ∧ t.err = .ok))

/-! ## EXPORT and IMPORT -/

/-- R171: EXPORT completes and writes the record of the engine, every CK_* register of it; R172: the bytes beyond the cache,
and the ignored words of the finalized shape, are zero; R173: no engine field changes. -/
def Obligations.ExportWritesTheRecord : Prop :=
  ∀ s : State,
    (∀ h t c, s.eng = .live h t c → c.length ≤ 64 →
      ∃ r : Checkpoint, exec .exportCk s = .next { s with ck := r, err := .ok, pending := none } ∧
        r.shape = 0 ∧ r.cacheLen.toNat = c.length ∧ r.totalLo = t.extractLsb' 0 32 ∧
        r.totalHi = t.extractLsb' 32 32 ∧ r.h = h ∧ windowBytes r.cache = c ++ zeros (64 - c.length)) ∧
    (∀ d t, s.eng = .final d t →
      ∃ r : Checkpoint, exec .exportCk s = .next { s with ck := r, err := .ok, pending := none } ∧
        r.shape = 1 ∧ r.cacheLen = 0 ∧ r.totalLo = t.extractLsb' 0 32 ∧ r.totalHi = t.extractLsb' 32 32 ∧
        r.h = d ∧ ∀ i : Fin 16, r.cache[i] = 0) ∧
    (s.eng = .fatal → exec .exportCk s = .next { s with err := .corruptPaddingState, pending := none })

/-- R175: IMPORT completes in every mode: the finalized shape gives FINAL, a consistent live record gives LIVE, and R178: an
inconsistent one fails with code 6 and changes nothing else. -/
def Obligations.ImportReplacesTheEngine : Prop :=
  ∀ s : State, ∃ t : DWord, t.toNat = s.ck.totalHi.toNat * 2 ^ 32 + s.ck.totalLo.toNat ∧
    (s.ck.shape = 1 → exec .importCk s = .next { s with eng := .final s.ck.h t, err := .ok, pending := none }) ∧
    (s.ck.shape = 0 → s.ck.cacheLen.toNat = expectedLen t.toNat →
      exec .importCk s = .next { s with
        eng := .live s.ck.h t ((windowBytes s.ck.cache).take s.ck.cacheLen.toNat), err := .ok, pending := none }) ∧
    (s.ck.shape = 0 → s.ck.cacheLen.toNat ≠ expectedLen t.toNat →
      exec .importCk s = .next { s with err := .invalidCheckpoint, pending := none })

/-- R177: after importing a live checkpoint with total_bits not a multiple of 8, STATE reads PARTIAL and every UPDATE fails
with code 2. -/
def Obligations.ImportRederivesPartial : Prop :=
  ∀ s u : State, s.ck.shape = 0 → (s.ck.totalLo.toNat % 8 ≠ 0) → exec .importCk s = .next u → u.err = .ok →
    (readReg .status u).extractLsb' 1 2 = 1#2 ∧
    ∀ len blv bitlen, exec (.update len blv bitlen) u =
      .next { u with err := .lateUpdateAfterPartialByte, pending := none }

/-- R179: EXPORT of a safe engine and then IMPORT of that record, into any engine in any mode, gives back the engine
exactly. -/
def Obligations.ExportImportRoundTrip : Prop :=
  ∀ s : State, s.Inv → ∃ t, exec .exportCk s = .next t ∧ t.eng = s.eng ∧
    ∀ u : State, u.ck = t.ck →
      exec .importCk u = .next { u with eng := s.eng, err := .ok, pending := none }

/-! ## Invariants of every step -/

/-- The invariant of R27, FATAL excluded (R157, R204), holds after every step from a state in which it holds, whatever agent
moves: so CORRUPT_PADDING_STATE and FATAL are unreachable from every safe state. -/
def Obligations.StepKeepsTheInvariant : Prop :=
  ∀ s t : State, s.Inv → step s = .next t → t.Inv

/-- The state after reset is safe, and a safe LIVE engine caches at most 64 bytes, exactly 64 only when T mod 8 is not 0 and
T > 0 (R27, R44). -/
def Obligations.ResetIsSafe : Prop :=
  State.reset.Inv ∧
  ∀ s h t c, State.Inv s → s.eng = .live h t c → c.length ≤ 64 ∧ (c.length = 64 → t.toNat % 8 ≠ 0 ∧ 0 < t.toNat)

/-- R23: within one engine lifetime, that is without INIT and IMPORT, the BitCounter never decreases, and only UPDATE
changes it. -/
def Obligations.CounterNeverDecreases : Prop :=
  ∀ (i : Instr) (s t : State) (a b : DWord), exec i s = .next t → i ≠ .init → i ≠ .importCk →
    s.eng.counter = some a → t.eng.counter = some b →
    a.toNat ≤ b.toNat ∧ ((∀ len blv bitlen, i ≠ .update len blv bitlen) → a = b)

/-- R26: while the engine is FINAL, no step changes it but the commit of INIT or IMPORT and the platform's reset. -/
def Obligations.FinalDigestIsFrozen : Prop :=
  ∀ (s t : State) (d : Vector Word 8) (n : DWord), s.eng = .final d n → step s = .next t → t.eng ≠ s.eng →
    s.turns.head? = some .reset ∨
    ∃ w, s.pending = some w ∧ t.pending = none ∧ (decode w = .ok .init ∨ decode w = .ok .importCk)

/-- The engine and ERRCODE change only at a commit or a reset, at which BUSY is 0 afterwards; OVR falls only by INIT and
reset (R32, R207, R235). -/
def Obligations.EngineChangesOnlyAtCommitOrReset : Prop :=
  ∀ s t : State, step s = .next t →
    (t.eng ≠ s.eng ∨ t.err ≠ s.err →
      t.pending = none ∧ (s.turns.head? = some .reset ∨ ∃ w, s.pending = some w ∧ ∃ ts, EngineNext s ts)) ∧
    (s.ovr = true → t.ovr = false →
      s.turns.head? = some .reset ∨ ∃ w, s.pending = some w ∧ decode w = .ok .init ∧ t.pending = none)

/-- No step writes the parameters of R7, and each step uses up at most one scheduled turn and at most one host operation
(R5, R236). -/
def Obligations.StepKeepsTheParameters : Prop :=
  ∀ s t : State, step s = .next t →
    t.config = s.config ∧ t.turns = s.turns.tail ∧ (t.host = s.host ∨ t.host = s.host.tail)
end

