-- ==== Sys2Proof/Laws/Bytes.lean ====
section
/-! SUPPORT. Byte order: the conversions of Machine/Bytes.lean are inverse to each other, and the lengths of what they give
(00_scope.md R10). -/

namespace Sys2Proof.Machine

@[simp] theorem be32Bytes_length (w : Word) : (be32Bytes w).length = 4 := rfl

@[simp] theorem be64Bytes_length (v : DWord) : (be64Bytes v).length = 8 := rfl

@[simp] theorem zeros_length (n : Nat) : (zeros n).length = n := by simp [zeros]

/-- The four bytes of a word are the word (R10). -/
theorem be32_be32Bytes (w : Word) (rest : ByteSeq) : be32 (be32Bytes w ++ rest) = w := by
  apply BitVec.eq_of_getLsbD_eq
  intro i hi
  show @BitVec.getLsbD (8 + 8 + 8 + 8)
    (w.extractLsb' 24 8 ++ w.extractLsb' 16 8 ++ w.extractLsb' 8 8 ++ w.extractLsb' 0 8) i = _
  simp only [BitVec.getLsbD_append, BitVec.getLsbD_extractLsb']
  by_cases h1 : i < 8
  · simp [h1]
  by_cases h2 : i - 8 < 8
  · simp only [h1, h2, if_true, if_false, decide_true, Bool.true_and]
    congr 1
    omega
  by_cases h3 : i - 8 - 8 < 8
  · simp only [h1, h2, h3, if_true, if_false, decide_true, Bool.true_and]
    congr 1
    omega
  · simp only [h1, h2, h3, show i - 8 - 8 - 8 < 8 by omega, if_false, decide_true, Bool.true_and]
    congr 1
    omega

/-- The word of four bytes has those bytes (R10). -/
theorem be32Bytes_be32 (a b c d : Byte) (rest : ByteSeq) : be32Bytes (be32 (a :: b :: c :: d :: rest)) = [a, b, c, d] := by
  show [(a ++ b ++ c ++ d).extractLsb' 24 8, (a ++ b ++ c ++ d).extractLsb' 16 8,
    (a ++ b ++ c ++ d).extractLsb' 8 8, (a ++ b ++ c ++ d).extractLsb' 0 8] = _
  simp only [List.cons.injEq, and_true]
  refine ⟨?_, ?_, ?_, ?_⟩ <;>
  · apply BitVec.eq_of_getLsbD_eq
    intro i hi
    simp only [BitVec.getLsbD_extractLsb', BitVec.getLsbD_append, hi, decide_true, Bool.true_and]
    interval_cases i <;> rfl

/-- A window of `n` words has `4n` bytes. -/
@[simp] theorem windowBytes_length {n : Nat} (v : Vector Word n) : (windowBytes v).length = 4 * n := by
  simp [windowBytes, List.length_flatMap, Nat.mul_comm]

/-- Dropping whole words from the bytes of a word list. -/
theorem drop_flatMap_be32Bytes (l : List Word) (i : Nat) :
    (l.flatMap be32Bytes).drop (4 * i) = (l.drop i).flatMap be32Bytes := by
  induction l generalizing i with
  | nil => simp
  | cons w l ih =>
    cases i with
    | zero => simp
    | succ i =>
      rw [List.flatMap_cons, List.drop_succ_cons, ← ih, List.drop_append, be32Bytes_length,
        List.drop_eq_nil_of_le (by simp only [be32Bytes_length]; omega), List.nil_append]
      congr 1

/-- Word `i` of a window, from its bytes. -/
theorem be32_windowBytes {n : Nat} (v : Vector Word n) (i : Nat) (h : i < n) :
    be32 ((windowBytes v).drop (4 * i)) = v[i] := by
  rw [windowBytes, drop_flatMap_be32Bytes, List.drop_eq_getElem_cons (by simpa using h), List.flatMap_cons,
    be32_be32Bytes]
  simp

/-- Packing the bytes of a window gives the window back (R39, R171). -/
theorem packBytes_windowBytes_getElem (v : Vector Word 16) (i : Nat) (h : i < 16) :
    (packBytes (windowBytes v))[i] = v[i] := by
  simp only [packBytes, Vector.getElem_ofFn]
  exact be32_windowBytes v i h

/-- The bytes of a word list, group by group, are the bytes the words were made from. -/
theorem flatMap_be32Bytes_be32 (n : Nat) (p : ByteSeq) (h : p.length = 4 * n) :
    ((List.range n).map fun i => be32 (p.drop (4 * i))).flatMap be32Bytes = p := by
  induction n generalizing p with
  | zero => simp_all
  | succ n ih =>
    match p, h with
    | a :: b :: c :: d :: rest, h =>
      rw [List.range_succ_eq_map, List.map_cons, List.map_map, List.flatMap_cons, Nat.mul_zero, List.drop_zero,
        be32Bytes_be32]
      have hr : rest.length = 4 * n := by simp only [List.length_cons] at h; omega
      have := ih rest hr
      rw [show ((fun i => be32 ((a :: b :: c :: d :: rest).drop (4 * i))) ∘ Nat.succ) =
        fun i => be32 (rest.drop (4 * i)) by
          funext i
          show be32 ((a :: b :: c :: d :: rest).drop (4 * (i + 1))) = _
          rw [show 4 * (i + 1) = 4 * i + 4 by omega]
          rfl, this]
      rfl

/-- A byte missing at the end counts as 0: `be32` of a group does not change when zeros are appended. -/
theorem be32_append_zeros (s : ByteSeq) (n : Nat) : be32 (s ++ zeros n) = be32 s := by
  have key : ∀ i, (s ++ zeros n).getD i 0 = s.getD i 0 := by
    intro i
    simp only [List.getD_eq_getElem?_getD, zeros, List.getElem?_append]
    by_cases hi : i < s.length
    · simp [hi]
    · by_cases hn : i - s.length < n <;> simp [hi, hn]
  simp only [be32, key]

/-- Padding a byte sequence with zeros does not change its packed words (R171). -/
theorem packBytes_append_zeros (p : ByteSeq) (n : Nat) : packBytes (p ++ zeros n) = packBytes p := by
  apply Vector.ext
  intro i hi
  simp only [packBytes, Vector.getElem_ofFn, List.drop_append]
  rw [show (zeros n).drop (4 * i - p.length) = zeros (n - (4 * i - p.length)) by simp [zeros]]
  exact be32_append_zeros _ _

end Sys2Proof.Machine
end

