-- ==== Sys2Proof/Laws/Compression.lean ====
section
/-! SUPPORT. The schedule and the compression of several blocks (40_compression.md R110, R111). -/

namespace Sys2Proof.Machine

@[simp] theorem roundConstants_length : roundConstants.length = 64 := by decide

@[simp] theorem blockWords_length (blk : ByteSeq) : (blockWords blk).length = 16 := by simp [blockWords]

@[simp] theorem extendSchedule_length (n : Nat) (ws : List Word) :
    (extendSchedule n ws).length = n + ws.length := by
  induction n generalizing ws with
  | zero => simp [extendSchedule]
  | succ n ih => rw [extendSchedule, ih, List.length_cons]; omega

@[simp] theorem schedule_length (blk : ByteSeq) : (schedule blk).length = 64 := by simp [schedule]

/-- Extending a schedule keeps the words it had, behind the new ones. -/
theorem extendSchedule_drop (n : Nat) (ws : List Word) : (extendSchedule n ws).drop n = ws := by
  induction n generalizing ws with
  | zero => rfl
  | succ n ih =>
    rw [extendSchedule, ← List.drop_drop, ih]
    rfl

/-- Each new word is made from the words behind it (newest first). -/
theorem extendSchedule_getD (n : Nat) (ws : List Word) (j : Nat) (h : j < n) :
    (extendSchedule n ws).getD j 0 = nextScheduleWord ((extendSchedule n ws).drop (j + 1)) := by
  induction n generalizing ws with
  | zero => omega
  | succ n ih =>
    rw [extendSchedule]
    by_cases hj : j < n
    · exact ih _ hj
    · have hjn : j = n := by omega
      subst hjn
      rw [← List.drop_drop, extendSchedule_drop, List.drop_one, List.tail_cons,
        show (extendSchedule j (nextScheduleWord ws :: ws)).getD j 0 =
          ((extendSchedule j (nextScheduleWord ws :: ws)).drop j).getD 0 0 by simp [List.getD_eq_getElem?_getD],
        extendSchedule_drop]
      rfl

/-- Word `t` of the schedule, counted from the newest. -/
theorem schedule_getD (blk : ByteSeq) (t : Nat) (h : t < 64) :
    (schedule blk).getD t 0 = (extendSchedule 48 (blockWords blk).reverse).getD (63 - t) 0 := by
  simp only [schedule, List.getD_eq_getElem?_getD]
  rw [List.getElem?_reverse (by simp; omega)]
  simp

/-- The first 16 words are the block's (R110). -/
theorem schedule_getD_block (blk : ByteSeq) (t : Nat) (h : t < 16) :
    (schedule blk).getD t 0 = be32 (blk.drop (4 * t)) := by
  rw [schedule_getD blk t (by omega),
    show (extendSchedule 48 (blockWords blk).reverse).getD (63 - t) 0 =
      ((extendSchedule 48 (blockWords blk).reverse).drop 48).getD (15 - t) 0 by
        simp only [List.getD_eq_getElem?_getD, List.getElem?_drop]
        rw [show 48 + (15 - t) = 63 - t by omega],
    extendSchedule_drop, List.getD_eq_getElem?_getD, List.getElem?_reverse (by simp; omega)]
  simp only [blockWords_length, show 16 - 1 - (15 - t) = t by omega]
  simp [blockWords, h]

/-! Compression of several blocks. -/

/-- Only the first 64 bytes of a block count. -/
theorem be32_take_drop (s : ByteSeq) (i n : Nat) (h : 4 * i + 4 ≤ n) :
    be32 ((s.take n).drop (4 * i)) = be32 (s.drop (4 * i)) := by
  have key : ∀ j, j < 4 → ((s.take n).drop (4 * i)).getD j 0 = (s.drop (4 * i)).getD j 0 := by
    intro j hj
    simp only [List.getD_eq_getElem?_getD, List.getElem?_drop, List.getElem?_take]
    rw [if_pos (by omega)]
  simp only [be32]
  rw [key 0 (by omega), key 1 (by omega), key 2 (by omega), key 3 (by omega)]

theorem blockWords_take (blk : ByteSeq) : blockWords (blk.take 64) = blockWords blk := by
  apply List.map_congr_left
  intro t ht
  rw [List.mem_range] at ht
  exact be32_take_drop blk t 64 (by omega)

/-- `compress` reads the first 64 bytes only. -/
theorem compress_take (v : Vector Word 8) (blk : ByteSeq) : compress v (blk.take 64) = compress v blk := by
  simp only [compress, schedule, blockWords_take]

@[simp] theorem compressBlocks_zero (v : Vector Word 8) (s : ByteSeq) : compressBlocks 0 v s = v := rfl

theorem compressBlocks_succ (n : Nat) (v : Vector Word 8) (s : ByteSeq) :
    compressBlocks (n + 1) v s = compressBlocks n (compress v (s.take 64)) (s.drop 64) := rfl

/-- Blocks are compressed in order: the first `m`, then the next `n` (R134, R155). -/
theorem compressBlocks_add (m n : Nat) (v : Vector Word 8) (s : ByteSeq) :
    compressBlocks (m + n) v s = compressBlocks n (compressBlocks m v s) (s.drop (64 * m)) := by
  induction m generalizing v s with
  | zero => simp
  | succ m ih =>
    rw [show m + 1 + n = (m + n) + 1 by omega, compressBlocks_succ, ih, compressBlocks_succ, List.drop_drop,
      show 64 + 64 * m = 64 * (m + 1) by omega]

/-- What lies beyond the first `n` blocks does not matter. -/
theorem compressBlocks_append (n : Nat) (v : Vector Word 8) (s r : ByteSeq) (h : 64 * n ≤ s.length) :
    compressBlocks n v (s ++ r) = compressBlocks n v s := by
  induction n generalizing v s with
  | zero => rfl
  | succ n ih =>
    rw [compressBlocks_succ, compressBlocks_succ, List.take_append_of_le_length (by omega),
      List.drop_append_of_le_length (by omega), ih _ _ (by simp; omega)]

end Sys2Proof.Machine
end

