-- ==== Sys2Proof/Laws/State.lean ====
section
/-! SUPPORT. One lemma per field per named update of Machine/Ops.lean and Machine/Schedule.lean, each true by `rfl`, so that no proof unfolds a
record update. -/

namespace Sys2Proof.Machine

variable (s : State)

/-! `withEng` -/

@[simp] theorem State.withEng_eng (x : Engine) : (s.withEng x).eng = x := rfl
@[simp] theorem State.withEng_pending (x : Engine) : (s.withEng x).pending = s.pending := rfl
@[simp] theorem State.withEng_ovr (x : Engine) : (s.withEng x).ovr = s.ovr := rfl
@[simp] theorem State.withEng_err (x : Engine) : (s.withEng x).err = s.err := rfl
@[simp] theorem State.withEng_din (x : Engine) : (s.withEng x).din = s.din := rfl
@[simp] theorem State.withEng_ck (x : Engine) : (s.withEng x).ck = s.ck := rfl
@[simp] theorem State.withEng_config (x : Engine) : (s.withEng x).config = s.config := rfl
@[simp] theorem State.withEng_host (x : Engine) : (s.withEng x).host = s.host := rfl
@[simp] theorem State.withEng_reads (x : Engine) : (s.withEng x).reads = s.reads := rfl
@[simp] theorem State.withEng_turns (x : Engine) : (s.withEng x).turns = s.turns := rfl

/-! `withPending` -/

@[simp] theorem State.withPending_eng (x : Option Word) : (s.withPending x).eng = s.eng := rfl
@[simp] theorem State.withPending_pending (x : Option Word) : (s.withPending x).pending = x := rfl
@[simp] theorem State.withPending_ovr (x : Option Word) : (s.withPending x).ovr = s.ovr := rfl
@[simp] theorem State.withPending_err (x : Option Word) : (s.withPending x).err = s.err := rfl
@[simp] theorem State.withPending_din (x : Option Word) : (s.withPending x).din = s.din := rfl
@[simp] theorem State.withPending_ck (x : Option Word) : (s.withPending x).ck = s.ck := rfl
@[simp] theorem State.withPending_config (x : Option Word) : (s.withPending x).config = s.config := rfl
@[simp] theorem State.withPending_host (x : Option Word) : (s.withPending x).host = s.host := rfl
@[simp] theorem State.withPending_reads (x : Option Word) : (s.withPending x).reads = s.reads := rfl
@[simp] theorem State.withPending_turns (x : Option Word) : (s.withPending x).turns = s.turns := rfl

/-! `withOvr` -/

@[simp] theorem State.withOvr_eng (x : Bool) : (s.withOvr x).eng = s.eng := rfl
@[simp] theorem State.withOvr_pending (x : Bool) : (s.withOvr x).pending = s.pending := rfl
@[simp] theorem State.withOvr_ovr (x : Bool) : (s.withOvr x).ovr = x := rfl
@[simp] theorem State.withOvr_err (x : Bool) : (s.withOvr x).err = s.err := rfl
@[simp] theorem State.withOvr_din (x : Bool) : (s.withOvr x).din = s.din := rfl
@[simp] theorem State.withOvr_ck (x : Bool) : (s.withOvr x).ck = s.ck := rfl
@[simp] theorem State.withOvr_config (x : Bool) : (s.withOvr x).config = s.config := rfl
@[simp] theorem State.withOvr_host (x : Bool) : (s.withOvr x).host = s.host := rfl
@[simp] theorem State.withOvr_reads (x : Bool) : (s.withOvr x).reads = s.reads := rfl
@[simp] theorem State.withOvr_turns (x : Bool) : (s.withOvr x).turns = s.turns := rfl

/-! `withErr` -/

@[simp] theorem State.withErr_eng (x : ErrCode) : (s.withErr x).eng = s.eng := rfl
@[simp] theorem State.withErr_pending (x : ErrCode) : (s.withErr x).pending = s.pending := rfl
@[simp] theorem State.withErr_ovr (x : ErrCode) : (s.withErr x).ovr = s.ovr := rfl
@[simp] theorem State.withErr_err (x : ErrCode) : (s.withErr x).err = x := rfl
@[simp] theorem State.withErr_din (x : ErrCode) : (s.withErr x).din = s.din := rfl
@[simp] theorem State.withErr_ck (x : ErrCode) : (s.withErr x).ck = s.ck := rfl
@[simp] theorem State.withErr_config (x : ErrCode) : (s.withErr x).config = s.config := rfl
@[simp] theorem State.withErr_host (x : ErrCode) : (s.withErr x).host = s.host := rfl
@[simp] theorem State.withErr_reads (x : ErrCode) : (s.withErr x).reads = s.reads := rfl
@[simp] theorem State.withErr_turns (x : ErrCode) : (s.withErr x).turns = s.turns := rfl

/-! `withDin` -/

@[simp] theorem State.withDin_eng (x : Vector Word 16) : (s.withDin x).eng = s.eng := rfl
@[simp] theorem State.withDin_pending (x : Vector Word 16) : (s.withDin x).pending = s.pending := rfl
@[simp] theorem State.withDin_ovr (x : Vector Word 16) : (s.withDin x).ovr = s.ovr := rfl
@[simp] theorem State.withDin_err (x : Vector Word 16) : (s.withDin x).err = s.err := rfl
@[simp] theorem State.withDin_din (x : Vector Word 16) : (s.withDin x).din = x := rfl
@[simp] theorem State.withDin_ck (x : Vector Word 16) : (s.withDin x).ck = s.ck := rfl
@[simp] theorem State.withDin_config (x : Vector Word 16) : (s.withDin x).config = s.config := rfl
@[simp] theorem State.withDin_host (x : Vector Word 16) : (s.withDin x).host = s.host := rfl
@[simp] theorem State.withDin_reads (x : Vector Word 16) : (s.withDin x).reads = s.reads := rfl
@[simp] theorem State.withDin_turns (x : Vector Word 16) : (s.withDin x).turns = s.turns := rfl

/-! `withCk` -/

@[simp] theorem State.withCk_eng (x : Checkpoint) : (s.withCk x).eng = s.eng := rfl
@[simp] theorem State.withCk_pending (x : Checkpoint) : (s.withCk x).pending = s.pending := rfl
@[simp] theorem State.withCk_ovr (x : Checkpoint) : (s.withCk x).ovr = s.ovr := rfl
@[simp] theorem State.withCk_err (x : Checkpoint) : (s.withCk x).err = s.err := rfl
@[simp] theorem State.withCk_din (x : Checkpoint) : (s.withCk x).din = s.din := rfl
@[simp] theorem State.withCk_ck (x : Checkpoint) : (s.withCk x).ck = x := rfl
@[simp] theorem State.withCk_config (x : Checkpoint) : (s.withCk x).config = s.config := rfl
@[simp] theorem State.withCk_host (x : Checkpoint) : (s.withCk x).host = s.host := rfl
@[simp] theorem State.withCk_reads (x : Checkpoint) : (s.withCk x).reads = s.reads := rfl
@[simp] theorem State.withCk_turns (x : Checkpoint) : (s.withCk x).turns = s.turns := rfl

/-! `withHost` -/

@[simp] theorem State.withHost_eng (x : List HostOp) : (s.withHost x).eng = s.eng := rfl
@[simp] theorem State.withHost_pending (x : List HostOp) : (s.withHost x).pending = s.pending := rfl
@[simp] theorem State.withHost_ovr (x : List HostOp) : (s.withHost x).ovr = s.ovr := rfl
@[simp] theorem State.withHost_err (x : List HostOp) : (s.withHost x).err = s.err := rfl
@[simp] theorem State.withHost_din (x : List HostOp) : (s.withHost x).din = s.din := rfl
@[simp] theorem State.withHost_ck (x : List HostOp) : (s.withHost x).ck = s.ck := rfl
@[simp] theorem State.withHost_config (x : List HostOp) : (s.withHost x).config = s.config := rfl
@[simp] theorem State.withHost_host (x : List HostOp) : (s.withHost x).host = x := rfl
@[simp] theorem State.withHost_reads (x : List HostOp) : (s.withHost x).reads = s.reads := rfl
@[simp] theorem State.withHost_turns (x : List HostOp) : (s.withHost x).turns = s.turns := rfl

/-! `withTurns` -/

@[simp] theorem State.withTurns_eng (x : List Turn) : (s.withTurns x).eng = s.eng := rfl
@[simp] theorem State.withTurns_pending (x : List Turn) : (s.withTurns x).pending = s.pending := rfl
@[simp] theorem State.withTurns_ovr (x : List Turn) : (s.withTurns x).ovr = s.ovr := rfl
@[simp] theorem State.withTurns_err (x : List Turn) : (s.withTurns x).err = s.err := rfl
@[simp] theorem State.withTurns_din (x : List Turn) : (s.withTurns x).din = s.din := rfl
@[simp] theorem State.withTurns_ck (x : List Turn) : (s.withTurns x).ck = s.ck := rfl
@[simp] theorem State.withTurns_config (x : List Turn) : (s.withTurns x).config = s.config := rfl
@[simp] theorem State.withTurns_host (x : List Turn) : (s.withTurns x).host = s.host := rfl
@[simp] theorem State.withTurns_reads (x : List Turn) : (s.withTurns x).reads = s.reads := rfl
@[simp] theorem State.withTurns_turns (x : List Turn) : (s.withTurns x).turns = x := rfl

/-! `logRead` -/

@[simp] theorem State.logRead_eng (a : Nat) (v : Word) : (s.logRead a v).eng = s.eng := rfl
@[simp] theorem State.logRead_pending (a : Nat) (v : Word) : (s.logRead a v).pending = s.pending := rfl
@[simp] theorem State.logRead_ovr (a : Nat) (v : Word) : (s.logRead a v).ovr = s.ovr := rfl
@[simp] theorem State.logRead_err (a : Nat) (v : Word) : (s.logRead a v).err = s.err := rfl
@[simp] theorem State.logRead_din (a : Nat) (v : Word) : (s.logRead a v).din = s.din := rfl
@[simp] theorem State.logRead_ck (a : Nat) (v : Word) : (s.logRead a v).ck = s.ck := rfl
@[simp] theorem State.logRead_config (a : Nat) (v : Word) : (s.logRead a v).config = s.config := rfl
@[simp] theorem State.logRead_host (a : Nat) (v : Word) : (s.logRead a v).host = s.host := rfl
@[simp] theorem State.logRead_reads (a : Nat) (v : Word) : (s.logRead a v).reads = ⟨a, v⟩ :: s.reads := rfl
@[simp] theorem State.logRead_turns (a : Nat) (v : Word) : (s.logRead a v).turns = s.turns := rfl

/-! `commitCode` -/

@[simp] theorem commitCode_eng (c : ErrCode) : (commitCode c s).eng = s.eng := rfl
@[simp] theorem commitCode_pending (c : ErrCode) : (commitCode c s).pending = none := rfl
@[simp] theorem commitCode_ovr (c : ErrCode) : (commitCode c s).ovr = s.ovr := rfl
@[simp] theorem commitCode_err (c : ErrCode) : (commitCode c s).err = c := rfl
@[simp] theorem commitCode_din (c : ErrCode) : (commitCode c s).din = s.din := rfl
@[simp] theorem commitCode_ck (c : ErrCode) : (commitCode c s).ck = s.ck := rfl
@[simp] theorem commitCode_config (c : ErrCode) : (commitCode c s).config = s.config := rfl
@[simp] theorem commitCode_host (c : ErrCode) : (commitCode c s).host = s.host := rfl
@[simp] theorem commitCode_reads (c : ErrCode) : (commitCode c s).reads = s.reads := rfl
@[simp] theorem commitCode_turns (c : ErrCode) : (commitCode c s).turns = s.turns := rfl

/-! `platformReset` -/

@[simp] theorem platformReset_eng : (platformReset s).eng = State.reset.eng := rfl
@[simp] theorem platformReset_pending : (platformReset s).pending = State.reset.pending := rfl
@[simp] theorem platformReset_ovr : (platformReset s).ovr = State.reset.ovr := rfl
@[simp] theorem platformReset_err : (platformReset s).err = State.reset.err := rfl
@[simp] theorem platformReset_din : (platformReset s).din = State.reset.din := rfl
@[simp] theorem platformReset_ck : (platformReset s).ck = State.reset.ck := rfl
@[simp] theorem platformReset_config : (platformReset s).config = s.config := rfl
@[simp] theorem platformReset_host : (platformReset s).host = s.host := rfl
@[simp] theorem platformReset_reads : (platformReset s).reads = s.reads := rfl
@[simp] theorem platformReset_turns : (platformReset s).turns = s.turns := rfl

/-! `placeCommand` -/

@[simp] theorem placeCommand_eng (w : Word) : (placeCommand w s).eng = s.eng := rfl
@[simp] theorem placeCommand_pending (w : Word) : (placeCommand w s).pending = some w := rfl
@[simp] theorem placeCommand_ovr (w : Word) : (placeCommand w s).ovr = s.ovr := rfl
@[simp] theorem placeCommand_err (w : Word) : (placeCommand w s).err = s.err := rfl
@[simp] theorem placeCommand_din (w : Word) : (placeCommand w s).din = s.din := rfl
@[simp] theorem placeCommand_ck (w : Word) : (placeCommand w s).ck = s.ck := rfl
@[simp] theorem placeCommand_config (w : Word) : (placeCommand w s).config = s.config := rfl
@[simp] theorem placeCommand_host (w : Word) : (placeCommand w s).host = s.host := rfl
@[simp] theorem placeCommand_reads (w : Word) : (placeCommand w s).reads = s.reads := rfl
@[simp] theorem placeCommand_turns (w : Word) : (placeCommand w s).turns = .engine :: s.turns := rfl

/-! The ends of a command, as the record they leave. -/

theorem finishOk_eq : finishOk s = .next { s with err := .ok, pending := none } := rfl

theorem raiseErr_eq (c : ErrCode) : raiseErr c s = .next { s with err := c, pending := none } := rfl

theorem enterFatal_eq :
    enterFatal s = .next { s with eng := .fatal, err := .corruptPaddingState, pending := none } := rfl

/-! Reset, field by field (R44). -/

@[simp] theorem reset_eng : State.reset.eng = .live initialH 0 [] := rfl
@[simp] theorem reset_pending : State.reset.pending = none := rfl
@[simp] theorem reset_ovr : State.reset.ovr = false := rfl
@[simp] theorem reset_err : State.reset.err = .ok := rfl
@[simp] theorem reset_din : State.reset.din = Vector.replicate 16 0 := rfl
@[simp] theorem reset_ck : State.reset.ck = Checkpoint.zero := rfl

end Sys2Proof.Machine
end

