-- ==== Sys2Proof/Laws/Accumulator.lean ====
section
/-! SUPPORT. UPDATE: the drain in closed form, the cache length a bit count requires, and everything the command can answer
(41_update.md R130 to R138, 10_state.md R27). -/

namespace Sys2Proof.Machine

/-! The cache length (R27). -/

theorem expectedLen_le (t : Nat) : expectedLen t ≤ 64 := by
  unfold expectedLen
  split <;> omega

theorem expectedLen_aligned (t : Nat) (h : t % 8 = 0) : expectedLen t = t % 512 / 8 := by
  unfold expectedLen
  rw [if_neg (by omega)]
  omega

theorem expectedLen_partial (t : Nat) (h : t % 8 ≠ 0) : expectedLen t = t % 512 / 8 + 1 := by
  unfold expectedLen
  split <;> omega

/-! The drain (R134). -/

/-- How many blocks the drain compresses: every full block of a byte-aligned cache; one less than that, when the last block
is exactly full, where the last byte is partial. -/
def drainCount (t len : Nat) : Nat := if t % 8 = 0 then len / 64 else (len - 1) / 64

/-- The loop compresses every full block that is not the last of the cache. -/
theorem drainFull_eq (n : Nat) (h : Vector Word 8) (c : ByteSeq) (hn : c.length ≤ n) :
    drainFull n h c = (compressBlocks ((c.length - 1) / 64) h c, c.drop (64 * ((c.length - 1) / 64))) := by
  induction n generalizing h c with
  | zero => simp_all [drainFull]
  | succ n ih =>
    unfold drainFull
    split
    · rename_i hc
      rw [ih _ _ (by simp; omega), show (c.length - 1) / 64 = (c.length - 64 - 1) / 64 + 1 by omega,
        compressBlocks_succ, List.length_drop, List.drop_drop, Nat.mul_succ, Nat.add_comm 64]
    · rename_i hc
      rw [show (c.length - 1) / 64 = 0 by omega]
      simp

/-- The drain in closed form. -/
theorem drain_eq (t : Nat) (h : Vector Word 8) (c : ByteSeq) :
    drain t h c = (compressBlocks (drainCount t c.length) h c, c.drop (64 * drainCount t c.length)) := by
  rw [drain, drainFull_eq _ _ _ (Nat.le_refl _), drainExact, drainCount]
  simp only [List.length_drop]
  by_cases ht : t % 8 = 0
  · by_cases hc : c.length - 64 * ((c.length - 1) / 64) = 64
    · rw [if_pos ⟨hc, ht⟩, if_pos ht]
      obtain ⟨m, hm⟩ : ∃ m, c.length = 64 * m + 64 := ⟨(c.length - 1) / 64, by omega⟩
      rw [show (c.length - 1) / 64 = m by omega, show c.length / 64 = m + 1 by omega, compressBlocks_add]
      simp only [compressBlocks]
      rw [List.drop_eq_nil_of_le (i := 64 * (m + 1)) (by omega)]
    · rw [if_neg (by simp [hc]), if_pos ht]
      rw [show (c.length - 1) / 64 = c.length / 64 by omega]
  · rw [if_neg (by simp [ht]), if_neg ht]

/-- What UPDATE leaves after it has appended (R133, R134), in closed form. -/
theorem absorb_eq (h : Vector Word 8) (t : DWord) (cache bytes : ByteSeq) (n : Nat) :
    absorb h t cache bytes n =
      .live (compressBlocks (drainCount (t + BitVec.ofNat 64 n).toNat (cache ++ bytes).length) h (cache ++ bytes))
        (t + BitVec.ofNat 64 n)
        ((cache ++ bytes).drop (64 * drainCount (t + BitVec.ofNat 64 n).toNat (cache ++ bytes).length)) := by
  simp only [absorb, drain_eq]

/-! The operands. -/

theorem chunk_eq (len : BitVec 7) (s : State) : chunk len s = (windowBytes s.din).take len.toNat := rfl

theorem chunk_length (len : BitVec 7) (s : State) (h : len.toNat ≤ 64) : (chunk len s).length = len.toNat := by
  simp [chunk, dinBytes, h]

/-- The bit count of an accepted UPDATE fills its bytes: at most 7 bits are missing from the last (R132). -/
theorem updateBits_bounds {len : BitVec 7} {blv : Bool} {bitlen : BitVec 10} {n : Nat}
    (h : updateBits len blv bitlen = some n) : n ≤ 8 * len.toNat ∧ 8 * len.toNat < n + 8 := by
  unfold updateBits at h
  split at h
  · split at h
    · split at h
      · cases h; omega
      · cases h
    · split at h
      · cases h; omega
      · cases h
  · cases h; omega

/-! Everything UPDATE can answer (R130). -/

/-- An UPDATE that answers a next state failed with a code, was empty, or appended. -/
theorem execUpdate_next {len : BitVec 7} {blv : Bool} {bitlen : BitVec 10} {s t : State}
    (h : execUpdate len blv bitlen s = .next t) :
    (s.eng = .fatal ∧ t = commitCode .corruptPaddingState s) ∨
    (∃ d n, s.eng = .final d n ∧ t = commitCode .updateAfterDigest s) ∨
    ∃ v k c, s.eng = .live v k c ∧
      ((k.toNat % 8 ≠ 0 ∧ t = commitCode .lateUpdateAfterPartialByte s) ∨
       (k.toNat % 8 = 0 ∧ updateBits len blv bitlen = none ∧ t = commitCode .invalidBitLength s) ∨
       (k.toNat % 8 = 0 ∧ len = 0 ∧ t = commitCode .ok s) ∨
       (∃ n, k.toNat % 8 = 0 ∧ len ≠ 0 ∧ updateBits len blv bitlen = some n ∧ k.toNat + n < 2 ^ 64 ∧
         t = commitCode .ok (s.withEng (absorb v k c (chunk len s) n)))) := by
  unfold execUpdate at h
  split at h
  · cases h; exact .inl ⟨‹_›, rfl⟩
  · cases h; exact .inr (.inl ⟨_, _, ‹_›, rfl⟩)
  · refine .inr (.inr ⟨_, _, _, ‹_›, ?_⟩)
    unfold updateLive at h
    split at h
    · cases h; exact .inl ⟨‹_›, rfl⟩
    rename_i hk
    have hk := Decidable.not_not.mp hk
    split at h
    · cases h; exact .inr (.inl ⟨hk, ‹_›, rfl⟩)
    split at h
    · cases h; exact .inr (.inr (.inl ⟨hk, ‹_›, rfl⟩))
    split at h
    · cases h
    · cases h
      exact .inr (.inr (.inr ⟨_, hk, ‹_›, ‹_›, by omega, rfl⟩))

/-! What UPDATE answers, mode by mode and check by check (R131). -/

theorem execUpdate_fatal {s : State} (hs : s.eng = .fatal) (len : BitVec 7) (blv : Bool) (bitlen : BitVec 10) :
    execUpdate len blv bitlen s = .next (commitCode .corruptPaddingState s) := by
  rw [execUpdate, hs]
  rfl

theorem execUpdate_final {s : State} {d : Vector Word 8} {k : DWord} (hs : s.eng = .final d k) (len : BitVec 7)
    (blv : Bool) (bitlen : BitVec 10) :
    execUpdate len blv bitlen s = .next (commitCode .updateAfterDigest s) := by
  rw [execUpdate, hs]
  rfl

theorem execUpdate_partial {s : State} {v : Vector Word 8} {k : DWord} {c : ByteSeq} (hs : s.eng = .live v k c)
    (hk : k.toNat % 8 ≠ 0) (len : BitVec 7) (blv : Bool) (bitlen : BitVec 10) :
    execUpdate len blv bitlen s = .next (commitCode .lateUpdateAfterPartialByte s) := by
  rw [execUpdate, hs]
  exact if_pos hk

theorem execUpdate_badBits {s : State} {v : Vector Word 8} {k : DWord} {c : ByteSeq} {len : BitVec 7} {blv : Bool}
    {bitlen : BitVec 10} (hs : s.eng = .live v k c) (hk : k.toNat % 8 = 0) (hb : updateBits len blv bitlen = none) :
    execUpdate len blv bitlen s = .next (commitCode .invalidBitLength s) := by
  rw [execUpdate, hs]
  simp only [updateLive, hk, hb]
  rfl

theorem execUpdate_empty {s : State} {v : Vector Word 8} {k : DWord} {c : ByteSeq} {len : BitVec 7} {blv : Bool}
    {bitlen : BitVec 10} (hs : s.eng = .live v k c) (hk : k.toNat % 8 = 0) (hb : updateBits len blv bitlen ≠ none)
    (hl : len = 0) : execUpdate len blv bitlen s = .next (commitCode .ok s) := by
  obtain ⟨n, hn⟩ := Option.ne_none_iff_exists'.mp hb
  rw [execUpdate, hs]
  simp only [updateLive, hk, hn, if_pos hl]
  rfl

theorem execUpdate_overflow {s : State} {v : Vector Word 8} {k : DWord} {c : ByteSeq} {len : BitVec 7} {blv : Bool}
    {bitlen : BitVec 10} {n : Nat} (hs : s.eng = .live v k c) (hk : k.toNat % 8 = 0)
    (hb : updateBits len blv bitlen = some n) (hl : len ≠ 0) (hn : 2 ^ 64 ≤ k.toNat + n) :
    execUpdate len blv bitlen s = .fault .counterOverflow := by
  rw [execUpdate, hs]
  simp only [updateLive, hk, hb]
  rw [if_neg (by omega), if_neg hl, if_pos (by omega)]

/-- Where UPDATE appends (R130): the checks that make it do so. -/
theorem execUpdate_append {len : BitVec 7} {blv : Bool} {bitlen : BitVec 10} {s : State} {v : Vector Word 8} {k : DWord}
    {c : ByteSeq} {n : Nat} (hs : s.eng = .live v k c) (hk : k.toNat % 8 = 0) (hb : updateBits len blv bitlen = some n)
    (hl : len ≠ 0) (hn : k.toNat + n < 2 ^ 64) :
    execUpdate len blv bitlen s = .next (commitCode .ok (s.withEng (absorb v k c (chunk len s) n))) := by
  simp only [execUpdate, hs, updateLive, hk, hb]
  rw [if_neg (by omega), if_neg hl, if_neg (by omega)]
  rfl

end Sys2Proof.Machine
end

