-- ==== Sys2Proof/Laws/Bits.lean ====
section
/-! SUPPORT. Messages as bits (00_scope.md R11): what `bitsOf` and `bytesOfBits` do to the byte sequences padding is made of
(42_finalize.md R153, R158). -/

namespace Sys2Proof.Machine

@[simp] theorem byteBits_length (b : Byte) : (byteBits b).length = 8 := rfl

@[simp] theorem bitsOf_nil : bitsOf [] = [] := rfl

theorem bitsOf_cons (b : Byte) (s : ByteSeq) : bitsOf (b :: s) = byteBits b ++ bitsOf s := rfl

theorem bitsOf_append (s r : ByteSeq) : bitsOf (s ++ r) = bitsOf s ++ bitsOf r := by simp [bitsOf]

theorem bitsOf_singleton (b : Byte) : bitsOf [b] = byteBits b := by simp [bitsOf]

@[simp] theorem bitsOf_length (s : ByteSeq) : (bitsOf s).length = 8 * s.length := by
  induction s with
  | nil => rfl
  | cons b s ih => rw [bitsOf_cons, List.length_append, ih, byteBits_length, List.length_cons]; omega

theorem bitsOf_take (s : ByteSeq) (n : Nat) : bitsOf (s.take n) = (bitsOf s).take (8 * n) := by
  induction s generalizing n with
  | nil => simp
  | cons b s ih =>
    cases n with
    | zero => simp
    | succ n =>
      rw [List.take_succ_cons, bitsOf_cons, bitsOf_cons, ih, show 8 * (n + 1) = (byteBits b).length + 8 * n by simp; omega,
        List.take_length_add_append]

theorem bitsOf_drop (s : ByteSeq) (n : Nat) : bitsOf (s.drop n) = (bitsOf s).drop (8 * n) := by
  induction s generalizing n with
  | nil => simp
  | cons b s ih =>
    cases n with
    | zero => simp
    | succ n =>
      rw [List.drop_succ_cons, bitsOf_cons, ih, show 8 * (n + 1) = (byteBits b).length + 8 * n by simp; omega,
        List.drop_length_add_append]

theorem bitsOf_zeros (n : Nat) : bitsOf (zeros n) = List.replicate (8 * n) false := by
  induction n with
  | zero => rfl
  | succ n ih => rw [zeros, List.replicate_succ, bitsOf_cons, show List.replicate n 0 = zeros n from rfl, ih,
      show 8 * (n + 1) = 8 + 8 * n by omega, List.replicate_add]; rfl

/-- The byte of a byte's bits is that byte. -/
theorem byteOfBits_byteBits (b : Byte) :
    byteOfBits (b.getLsbD 7) (b.getLsbD 6) (b.getLsbD 5) (b.getLsbD 4) (b.getLsbD 3) (b.getLsbD 2) (b.getLsbD 1)
      (b.getLsbD 0) = b := by
  apply BitVec.eq_of_getLsbD_eq
  intro i hi
  simp only [byteOfBits, BitVec.getLsbD_append, BitVec.getLsbD_ofBool]
  interval_cases i <;> simp

theorem bytesOfBits_bitsOf (s : ByteSeq) : bytesOfBits (bitsOf s) = s := by
  induction s with
  | nil => rfl
  | cons b s ih =>
    rw [bitsOf_cons, byteBits]
    simp only [List.cons_append, List.nil_append, bytesOfBits, byteOfBits_byteBits, ih]

/-- The partial byte with its padding bit: `sh` message bits, a 1, and zeros, when the excess bits are cleared or are zero
(R153). -/
theorem byteBits_padPartialByte (clear : Bool) (sh : Nat) (b : Byte) (h0 : 0 < sh) (h8 : sh < 8)
    (h : clear = true ∨ ∀ x ∈ (byteBits b).drop sh, x = false) :
    byteBits (padPartialByte clear sh b) = (byteBits b).take sh ++ true :: List.replicate (7 - sh) false := by
  cases clear
  · simp only [Bool.false_eq_true, false_or] at h
    interval_cases sh <;> simp [byteBits, padPartialByte] at h ⊢ <;> simp_all
  · interval_cases sh <;> simp [byteBits, padPartialByte, List.replicate]

end Sys2Proof.Machine
end

