-- ==== Sys2Proof/Laws/Encoding.lean ====
section
/-! SUPPORT. The fields of a command word as numbers, and the fields of an encoded UPDATE (30_encoding.md R70, R76). -/

namespace Sys2Proof

/-! A field of a word is a digit of its number (R8). -/

variable (w : Word)

theorem opField_toNat : (opField w).toNat = w.toNat % 2 ^ 4 := by
  simp [opField, BitVec.extractLsb'_toNat]

theorem rsv0Field_toNat : (rsv0Field w).toNat = w.toNat / 2 ^ 4 % 2 ^ 4 := by
  simp [rsv0Field, BitVec.extractLsb'_toNat, Nat.shiftRight_eq_div_pow]

theorem lenField_toNat : (lenField w).toNat = w.toNat / 2 ^ 8 % 2 ^ 7 := by
  simp [lenField, BitVec.extractLsb'_toNat, Nat.shiftRight_eq_div_pow]

theorem bitlenField_toNat : (bitlenField w).toNat = w.toNat / 2 ^ 16 % 2 ^ 10 := by
  simp [bitlenField, BitVec.extractLsb'_toNat, Nat.shiftRight_eq_div_pow]

theorem rsv1Field_toNat : (rsv1Field w).toNat = w.toNat / 2 ^ 26 := by
  have := w.isLt
  simp only [rsv1Field, BitVec.extractLsb'_toNat, Nat.shiftRight_eq_div_pow]
  omega

theorem operandField_toNat : (operandField w).toNat = w.toNat / 2 ^ 8 := by
  have := w.isLt
  simp only [operandField, BitVec.extractLsb'_toNat, Nat.shiftRight_eq_div_pow]
  omega

theorem blvField_eq : blvField w = decide (w.toNat / 2 ^ 15 % 2 = 1) := by
  simp [blvField, BitVec.getLsbD, Nat.testBit_eq_decide_div_mod_eq]

/-- Two vectors are equal when their numbers are: the form in which a field is compared with a constant. -/
theorem field_eq_iff {n : Nat} (x y : BitVec n) : x = y ↔ x.toNat = y.toNat := BitVec.toNat_inj.symm

/-! An encoded UPDATE (R70, R77). -/

variable (len : BitVec 7) (blv : Bool) (bitlen : BitVec 10)

theorem encodeUpdate_toNat :
    (encodeUpdate len blv bitlen).toNat = 2 + 2 ^ 8 * len.toNat + 2 ^ 15 * blv.toNat + 2 ^ 16 * bitlen.toNat := by
  simp only [encodeUpdate, BitVec.toNat_append, BitVec.toNat_ofNat, BitVec.toNat_ofBool]
  have hl := len.isLt
  have hb := blv.toNat_lt
  rw [← Nat.shiftLeft_add_eq_or_of_lt (by omega), ← Nat.shiftLeft_add_eq_or_of_lt (by omega),
    ← Nat.shiftLeft_add_eq_or_of_lt (by omega), ← Nat.shiftLeft_add_eq_or_of_lt (by omega),
    ← Nat.shiftLeft_add_eq_or_of_lt (by omega)]
  simp only [Nat.shiftLeft_eq]
  omega

theorem opField_encodeUpdate : opField (encodeUpdate len blv bitlen) = 2 := by
  rw [field_eq_iff, opField_toNat, encodeUpdate_toNat]
  simp
  omega

theorem rsv0Field_encodeUpdate : rsv0Field (encodeUpdate len blv bitlen) = 0 := by
  rw [field_eq_iff, rsv0Field_toNat, encodeUpdate_toNat]
  simp
  omega

theorem rsv1Field_encodeUpdate : rsv1Field (encodeUpdate len blv bitlen) = 0 := by
  have h1 := len.isLt
  have h2 := blv.toNat_lt
  have h3 := bitlen.isLt
  rw [field_eq_iff, rsv1Field_toNat, encodeUpdate_toNat]
  simp
  omega

theorem lenField_encodeUpdate : lenField (encodeUpdate len blv bitlen) = len := by
  have h1 := len.isLt
  rw [field_eq_iff, lenField_toNat, encodeUpdate_toNat]
  omega

theorem bitlenField_encodeUpdate : bitlenField (encodeUpdate len blv bitlen) = bitlen := by
  have h1 := len.isLt
  have h2 := blv.toNat_lt
  have h3 := bitlen.isLt
  rw [field_eq_iff, bitlenField_toNat, encodeUpdate_toNat]
  omega

theorem blvField_encodeUpdate : blvField (encodeUpdate len blv bitlen) = blv := by
  have h1 := len.isLt
  rw [blvField_eq, encodeUpdate_toNat]
  cases blv <;> simp <;> omega

/-- The word of a command is the number made of its fields. -/
theorem encodeUpdate_fields (h0 : rsv0Field w = 0) (h1 : rsv1Field w = 0) (h2 : opField w = 2) :
    encodeUpdate (lenField w) (blvField w) (bitlenField w) = w := by
  rw [field_eq_iff] at *
  rw [opField_toNat] at h2
  rw [rsv0Field_toNat] at h0
  rw [rsv1Field_toNat] at h1
  rw [encodeUpdate_toNat, lenField_toNat, bitlenField_toNat, blvField_eq]
  simp at h0 h1 h2
  by_cases hb : w.toNat / 2 ^ 15 % 2 = 1
  · simp only [hb, decide_true, Bool.toNat_true]
    omega
  · simp only [hb, decide_false, Bool.toNat_false]
    omega

/-- The bits of an encoded UPDATE, at their places (R70). -/
theorem encodeUpdate_getLsbD (i : Nat) :
    (encodeUpdate len blv bitlen).getLsbD i =
      if i < 4 then decide (i = 1) else if i < 8 then false else if i < 15 then len.getLsbD (i - 8)
      else if i < 16 then blv else bitlen.getLsbD (i - 16) := by
  show @BitVec.getLsbD (6 + 10 + 1 + 7 + 4 + 4) (0#6 ++ bitlen ++ BitVec.ofBool blv ++ len ++ 0#4 ++ 2#4) i = _
  simp only [BitVec.getLsbD_append, BitVec.getLsbD_zero]
  by_cases h1 : i < 4
  · simp only [h1, if_true]
    interval_cases i <;> rfl
  by_cases h2 : i < 8
  · simp [h1, h2, show i - 4 < 4 by omega]
  by_cases h3 : i < 15
  · simp only [h1, h2, h3, show ¬ i - 4 < 4 by omega, show i - 4 - 4 = i - 8 by omega,
      show i - 8 < 7 by omega, if_true, if_false]
  by_cases h4 : i < 16
  · have : i = 15 := by omega
    subst this
    simp
  · simp only [h1, h2, h3, h4, show ¬ i - 4 < 4 by omega, show ¬ i - 4 - 4 < 7 by omega,
      show ¬ i - 4 - 4 - 7 < 1 by omega, show i - 4 - 4 - 7 - 1 = i - 16 by omega, if_false]
    by_cases h5 : i - 16 < 10
    · simp [h5]
    · simp [h5, BitVec.getLsbD_of_ge _ _ (by omega : 10 ≤ i - 16)]

/-! The decoder, once: which fields a legal word has, and the converse (R76). -/

/-- A command without operands is decoded only from fields that name it. -/
theorem decodeBare_ok {i j : Instr} (h : decodeBare i w = .ok j) : operandField w = 0 ∧ j = i := by
  unfold decodeBare at h
  split at h
  · cases h; exact ⟨‹_›, rfl⟩
  · cases h

/-- An UPDATE is decoded only from legal fields. -/
theorem decodeUpdate_ok {j : Instr} (h : decodeUpdate w = .ok j) :
    rsv1Field w = 0 ∧ lenLegal (lenField w) = true ∧ bitlenLegal (blvField w) (bitlenField w) = true ∧
      j = .update (lenField w) (blvField w) (bitlenField w) := by
  unfold decodeUpdate at h
  split at h
  · cases h
  split at h
  · cases h
  split at h
  · cases h
  · cases h
    simp_all

/-- Everything `decode` can answer with a command. -/
theorem decode_ok_cases {i : Instr} (h : decode w = .ok i) :
    rsv0Field w = 0 ∧
      ((opField w = 1 ∧ operandField w = 0 ∧ i = .init) ∨
       (opField w = 3 ∧ operandField w = 0 ∧ i = .digest) ∨
       (opField w = 4 ∧ operandField w = 0 ∧ i = .exportCk) ∨
       (opField w = 5 ∧ operandField w = 0 ∧ i = .importCk) ∨
       (opField w = 2 ∧ rsv1Field w = 0 ∧ lenLegal (lenField w) = true ∧
         bitlenLegal (blvField w) (bitlenField w) = true ∧
         i = .update (lenField w) (blvField w) (bitlenField w))) := by
  unfold decode at h
  split at h
  · cases h
  refine ⟨Decidable.not_not.mp ‹_›, ?_⟩
  split at h
  · exact .inl ⟨‹_›, decodeBare_ok w h⟩
  split at h
  · exact .inr (.inr (.inr (.inr ⟨‹_›, decodeUpdate_ok w h⟩)))
  split at h
  · exact .inr (.inl ⟨‹_›, decodeBare_ok w h⟩)
  split at h
  · exact .inr (.inr (.inl ⟨‹_›, decodeBare_ok w h⟩))
  split at h
  · exact .inr (.inr (.inr (.inl ⟨‹_›, decodeBare_ok w h⟩)))
  · cases h

/-- Legal UPDATE fields decode to UPDATE. -/
theorem decode_update_of_fields (h0 : rsv0Field w = 0) (h1 : opField w = 2) (h2 : rsv1Field w = 0)
    (h3 : lenLegal (lenField w) = true) (h4 : bitlenLegal (blvField w) (bitlenField w) = true) :
    decode w = .ok (.update (lenField w) (blvField w) (bitlenField w)) := by
  simp [decode, decodeUpdate, h0, h1, h2, h3, h4]

/-- A word with OP = k and every other bit 0 is the number k. -/
theorem toNat_of_bare {k : Nat} (h0 : rsv0Field w = 0) (h1 : (opField w).toNat = k) (h : operandField w = 0) :
    w.toNat = k := by
  rw [field_eq_iff] at h0 h
  rw [rsv0Field_toNat] at h0
  rw [opField_toNat] at h1
  rw [operandField_toNat] at h
  simp at *
  omega

end Sys2Proof
end

