-- ==== Sys2Proof/Laws/Finalizer.lean ====
section
/-! SUPPORT. DIGEST: the padding bit, the length of the padded cache, and everything the command can answer (42_finalize.md
R150 to R157). -/

namespace Sys2Proof.Machine

/-- The padding bit of a byte-aligned count is a byte of its own (R153). -/
theorem addPaddingBit_aligned (clear : Bool) (t : Nat) (c : ByteSeq) (h : t % 8 = 0) :
    addPaddingBit clear t c = some (c ++ [0x80]) := by
  rw [addPaddingBit, if_neg (by omega)]

/-- At a sub-byte boundary it goes into the last byte (R153). -/
theorem addPaddingBit_partial (clear : Bool) (t : Nat) (c : ByteSeq) (last : Byte) (h : t % 8 ≠ 0) :
    addPaddingBit clear t (c ++ [last]) = some (c ++ [padPartialByte clear (t % 8) last]) := by
  rw [addPaddingBit, if_pos h]
  simp

/-- An empty cache has no partial byte (R150). -/
theorem addPaddingBit_empty (clear : Bool) (t : Nat) (h : t % 8 ≠ 0) : addPaddingBit clear t [] = none := by
  rw [addPaddingBit, if_pos h]
  rfl

/-- The padded cache, where the post-condition holds (R154). -/
theorem padCache_of_bit {clear : Bool} {t : DWord} {c c' : ByteSeq} (h : addPaddingBit clear t.toNat c = some c')
    (hl : c'.length + zeroFill (t.toNat % 512) + 8 = 64 ∨ c'.length + zeroFill (t.toNat % 512) + 8 = 128) :
    padCache clear t c = some (c' ++ zeros (zeroFill (t.toNat % 512)) ++ be64Bytes t) := by
  rw [padCache, h]
  exact if_pos (by simpa [Nat.add_assoc] using hl)

/-- The padded cache has 64 or 128 bytes wherever there is one (R154). -/
theorem padCache_length {clear : Bool} {t : DWord} {c p : ByteSeq} (h : padCache clear t c = some p) :
    p.length = 64 ∨ p.length = 128 := by
  unfold padCache at h
  split at h
  · cases h
  · simp only at h
    split at h
    · cases h; assumption
    · cases h

/-- The byte count before the zeros, from a cache of the length R27 requires: the full bytes and one more (R157). -/
theorem addPaddingBit_some (clear : Bool) (t : Nat) (c : ByteSeq) (h : c.length = expectedLen t) :
    ∃ c', addPaddingBit clear t c = some c' ∧ c'.length = t % 512 / 8 + 1 := by
  by_cases ht : t % 8 = 0
  · exact ⟨_, addPaddingBit_aligned clear t c ht, by simp [h, expectedLen_aligned t ht]⟩
  · rw [expectedLen_partial t ht] at h
    rcases List.eq_nil_or_concat c with rfl | ⟨c₀, last, rfl⟩
    · simp at h
    · rw [List.concat_eq_append] at h ⊢
      exact ⟨_, addPaddingBit_partial clear t c₀ last ht, by simpa using h⟩

/-- Everything DIGEST can answer (R150). -/
theorem execDigest_next {s t : State} (h : execDigest s = .next t) :
    (s.eng = .fatal ∧ t = commitCode .corruptPaddingState s) ∨
    (∃ d n, s.eng = .final d n ∧ t = commitCode .ok s) ∨
    ∃ v k c, s.eng = .live v k c ∧
      ((padCache s.config.clearTrailingBits k c = none ∧
          t = commitCode .corruptPaddingState (s.withEng .fatal)) ∨
       (∃ p, padCache s.config.clearTrailingBits k c = some p ∧
          t = commitCode .ok (s.withEng (.final (compressBlocks (p.length / 64) v p) k)))) := by
  unfold execDigest at h
  split at h
  · cases h; exact .inl ⟨‹_›, rfl⟩
  · cases h; exact .inr (.inl ⟨_, _, ‹_›, rfl⟩)
  · refine .inr (.inr ⟨_, _, _, ‹_›, ?_⟩)
    unfold digestLive at h
    split at h
    · cases h; exact .inl ⟨‹_›, rfl⟩
    · cases h; exact .inr ⟨_, ‹_›, rfl⟩

/-! What DIGEST answers, mode by mode (R150, R156). -/

theorem execDigest_fatal {s : State} (hs : s.eng = .fatal) :
    execDigest s = .next (commitCode .corruptPaddingState s) := by
  rw [execDigest, hs]
  rfl

theorem execDigest_final {s : State} {d : Vector Word 8} {k : DWord} (hs : s.eng = .final d k) :
    execDigest s = .next (commitCode .ok s) := by
  rw [execDigest, hs]
  rfl

/-- DIGEST of a LIVE engine whose cache does not pad (R154). -/
theorem execDigest_corrupt {s : State} {v : Vector Word 8} {k : DWord} {c : ByteSeq} (hs : s.eng = .live v k c)
    (hp : padCache s.config.clearTrailingBits k c = none) :
    execDigest s = .next (commitCode .corruptPaddingState (s.withEng .fatal)) := by
  simp only [execDigest, hs, digestLive, hp]
  rfl

/-- DIGEST of a LIVE engine whose cache pads (R150, R155). -/
theorem execDigest_live {s : State} {v : Vector Word 8} {k : DWord} {c p : ByteSeq} (hs : s.eng = .live v k c)
    (hp : padCache s.config.clearTrailingBits k c = some p) :
    execDigest s = .next (commitCode .ok (s.withEng (.final (compressBlocks (p.length / 64) v p) k))) := by
  simp only [execDigest, hs, digestLive, hp]
  rfl

end Sys2Proof.Machine
end

