-- ==== Sys2Proof/Laws/Serializer.lean ====
section
/-! SUPPORT. EXPORT, IMPORT and INIT: everything they can answer (43_checkpoint.md R171, R175, 44_control.md R191). -/

namespace Sys2Proof.Machine

/-- The two halves of the bit count make it again (R37, R170). -/
theorem append_halves (t : DWord) : (t.extractLsb' 32 32 ++ t.extractLsb' 0 32 : DWord) = t := by
  apply BitVec.eq_of_getLsbD_eq
  intro i hi
  show @BitVec.getLsbD (32 + 32) (t.extractLsb' 32 32 ++ t.extractLsb' 0 32) i = _
  simp only [BitVec.getLsbD_append, BitVec.getLsbD_extractLsb']
  by_cases h : i < 32
  · simp [h]
  · simp [h, show i - 32 < 32 by omega, show 32 + (i - 32) = i by omega]

/-- The checkpoint's bit count as a number (R37). -/
theorem totalBits_toNat (ck : Checkpoint) : (totalBits ck).toNat = ck.totalHi.toNat * 2 ^ 32 + ck.totalLo.toNat := by
  have h := ck.totalLo.isLt
  simp only [totalBits, BitVec.toNat_append]
  rw [← Nat.shiftLeft_add_eq_or_of_lt h, Nat.shiftLeft_eq]

/-- INIT has one answer (R191). -/
theorem execInit_eq (s : State) : execInit s = .next (commitCode .ok ((s.withEng .fresh).withOvr false)) := rfl

theorem execExport_fatal {s : State} (hs : s.eng = .fatal) :
    execExport s = .next (commitCode .corruptPaddingState s) := by
  rw [execExport, hs]
  rfl

theorem execExport_record {s : State} {r : Checkpoint} (hr : exportRecord s.eng = some r) :
    execExport s = .next (commitCode .ok (s.withCk r)) := by
  rw [execExport, hr]
  rfl

theorem execImport_engine {s : State} {e : Engine} (he : importEngine s.ck = some e) :
    execImport s = .next (commitCode .ok (s.withEng e)) := by
  rw [execImport, he]
  rfl

theorem execImport_bad {s : State} (he : importEngine s.ck = none) :
    execImport s = .next (commitCode .invalidCheckpoint s) := by
  rw [execImport, he]
  rfl

/-- Everything EXPORT can answer (R171). -/
theorem execExport_next {s t : State} (h : execExport s = .next t) :
    (s.eng = .fatal ∧ t = commitCode .corruptPaddingState s) ∨
    (∃ r, exportRecord s.eng = some r ∧ t = commitCode .ok (s.withCk r)) := by
  unfold execExport at h
  split at h
  · rename_i he
    cases h
    refine .inl ⟨?_, rfl⟩
    cases hs : s.eng <;> simp_all [exportRecord]
  · cases h; exact .inr ⟨_, ‹_›, rfl⟩

/-- Everything IMPORT can answer (R175). -/
theorem execImport_next {s t : State} (h : execImport s = .next t) :
    (importEngine s.ck = none ∧ t = commitCode .invalidCheckpoint s) ∨
    (∃ e, importEngine s.ck = some e ∧ t = commitCode .ok (s.withEng e)) := by
  unfold execImport at h
  split at h
  · cases h; exact .inl ⟨‹_›, rfl⟩
  · cases h; exact .inr ⟨_, ‹_›, rfl⟩

/-- Everything a record can describe (R175, R178). -/
theorem importEngine_some {ck : Checkpoint} {e : Engine} (h : importEngine ck = some e) :
    (ck.shape = 1 ∧ e = .final ck.h (totalBits ck)) ∨
    (ck.shape ≠ 1 ∧ ck.cacheLen.toNat = expectedLen (totalBits ck).toNat ∧
      e = .live ck.h (totalBits ck) (importedCache ck)) := by
  unfold importEngine at h
  split at h
  · cases h; exact .inl ⟨‹_›, rfl⟩
  · split at h
    · cases h
    · cases h
      exact .inr ⟨‹_›, Decidable.not_not.mp ‹_›, rfl⟩

end Sys2Proof.Machine
end

