-- ==== Sys2Proof/Laws/Commands.lean ====
section
/-! SUPPORT. What any command and any step can do, said once: every commit ends by `commitCode` on a state in which at most
the engine, OVR or the record was replaced; and a step is one of three turns (44_control.md R190, 70_reset_and_hazards.md R236). -/

namespace Sys2Proof.Machine

/-- A command that answers a next state commits a code on the state, on a new engine, on INIT's fresh engine with OVR
cleared, or on a new record. -/
theorem exec_next {i : Instr} {s t : State} (h : exec i s = .next t) :
    (∃ c, t = commitCode c s) ∨ (i ≠ .exportCk ∧ ∃ c e, t = commitCode c (s.withEng e)) ∨
    (i = .init ∧ t = commitCode .ok ((s.withEng .fresh).withOvr false)) ∨
    (i = .exportCk ∧ ∃ r, t = commitCode .ok (s.withCk r)) := by
  cases i with
  | init => cases h; exact .inr (.inr (.inl ⟨rfl, rfl⟩))
  | update len blv bitlen =>
    rcases execUpdate_next h with ⟨_, e⟩ | ⟨_, _, _, e⟩ | ⟨_, _, _, _, ⟨_, e⟩ | ⟨_, _, e⟩ | ⟨_, _, e⟩ | ⟨_, _, _, _, _, e⟩⟩
    · exact .inl ⟨_, e⟩
    · exact .inl ⟨_, e⟩
    · exact .inl ⟨_, e⟩
    · exact .inl ⟨_, e⟩
    · exact .inl ⟨_, e⟩
    · exact .inr (.inl ⟨by simp, _, _, e⟩)
  | digest =>
    rcases execDigest_next h with ⟨_, e⟩ | ⟨_, _, _, e⟩ | ⟨_, _, _, _, ⟨_, e⟩ | ⟨_, _, e⟩⟩
    · exact .inl ⟨_, e⟩
    · exact .inl ⟨_, e⟩
    · exact .inr (.inl ⟨by simp, _, _, e⟩)
    · exact .inr (.inl ⟨by simp, _, _, e⟩)
  | exportCk =>
    rcases execExport_next h with ⟨_, e⟩ | ⟨_, _, e⟩
    · exact .inl ⟨_, e⟩
    · exact .inr (.inr (.inr ⟨rfl, _, e⟩))
  | importCk =>
    rcases execImport_next h with ⟨_, e⟩ | ⟨_, _, e⟩
    · exact .inl ⟨_, e⟩
    · exact .inr (.inl ⟨by simp, _, _, e⟩)

/-- No command is refused, and the only fault is UPDATE's. -/
theorem exec_stops (i : Instr) (s : State) :
    (∃ t, exec i s = .next t) ∨ (exec i s = .fault .counterOverflow ∧ ∃ len blv bitlen, i = .update len blv bitlen) := by
  cases i with
  | init => exact .inl ⟨_, rfl⟩
  | update len blv bitlen =>
    simp only [exec, execUpdate]
    split
    · exact .inl ⟨_, rfl⟩
    · exact .inl ⟨_, rfl⟩
    · unfold updateLive
      split
      · exact .inl ⟨_, rfl⟩
      split
      · exact .inl ⟨_, rfl⟩
      split
      · exact .inl ⟨_, rfl⟩
      split
      · exact .inr ⟨rfl, _, _, _, rfl⟩
      · exact .inl ⟨_, rfl⟩
  | digest =>
    simp only [exec, execDigest]
    split
    · exact .inl ⟨_, rfl⟩
    · exact .inl ⟨_, rfl⟩
    · unfold digestLive
      split <;> exact .inl ⟨_, rfl⟩
  | exportCk =>
    simp only [exec, execExport]
    split <;> exact .inl ⟨_, rfl⟩
  | importCk =>
    simp only [exec, execImport]
    split <;> exact .inl ⟨_, rfl⟩

/-! The commit. -/

theorem commit_ok {w : Word} {i : Instr} (h : decode w = .ok i) (s : State) : commit w s = exec i s := by
  rw [commit, h]

theorem commit_error {w : Word} {e : Illegal} (h : decode w = .error e) (s : State) :
    commit w s = .next (commitCode .invalidCommand s) := by
  rw [commit, h]
  rfl

/-! The turns. -/

theorem step_engine {s : State} {ts : List Turn} {w : Word} (h : EngineNext s ts) (hp : s.pending = some w) :
    step s = commit w (s.withTurns ts) := by
  rcases h with h | ⟨h, rfl, _⟩
  · simp only [step, oneTurn, h, engineTurn, State.withTurns_pending, hp]
  · have : s.withTurns [] = s := by rw [← h]; rfl
    simp only [step, oneTurn, h, engineTurn, hp, this, Option.isSome_some, if_true]

theorem step_host {s : State} {ts : List Turn} (h : HostNext s ts) : step s = hostTurn (s.withTurns ts) := by
  rcases h with h | ⟨h, rfl, hp⟩
  · simp only [step, oneTurn, h]
  · have : s.withTurns [] = s := by rw [← h]; rfl
    simp [step, oneTurn, h, hp, this]

theorem step_host_access {s : State} {ts : List Turn} {op : HostOp} {rest : List HostOp} (h : HostNext s ts)
    (ho : s.host = op :: rest) : step s = hostAccess op rest (s.withTurns ts) := by
  rw [step_host h, hostTurn, State.withTurns_host, ho]

theorem step_reset {s : State} {ts : List Turn} (h : s.turns = .reset :: ts) :
    step s = .next (platformReset (s.withTurns ts)) := by
  simp only [step, oneTurn, h]

/-- Everything a host access can do: it is logged, or it is a write; what is left to do is given with it. -/
theorem hostAccess_next {op : HostOp} {rest : List HostOp} {s t : State} (h : hostAccess op rest s = .next t) :
    (∃ r a v, (r = rest ∨ r = op :: rest) ∧ t = (s.withHost r).logRead a v) ∨
    (∃ r v, t = writeReg r v (s.withHost rest)) := by
  cases op with
  | read a w =>
    simp only [hostAccess] at h
    split at h <;> cases h
    exact .inl ⟨_, _, _, .inl rfl, rfl⟩
  | write a w v =>
    simp only [hostAccess] at h
    split at h <;> cases h
    exact .inr ⟨_, _, rfl⟩
  | wait =>
    simp only [hostAccess] at h
    cases h
    refine .inl ⟨_, _, _, ?_, rfl⟩
    split
    · exact .inr rfl
    · exact .inl rfl

/-- Everything a step can do: the platform resets, the host makes an access or has none to make, the engine commits or is
idle. -/
theorem step_next {s t : State} (h : step s = .next t) :
    (∃ ts, s.turns = .reset :: ts ∧ t = platformReset (s.withTurns ts)) ∨
    (∃ ts w, EngineNext s ts ∧ s.pending = some w ∧ commit w (s.withTurns ts) = .next t) ∨
    t = s.withTurns s.turns.tail ∨
    (∃ ts op rest, HostNext s ts ∧ ts = s.turns.tail ∧ s.host = op :: rest ∧
      hostAccess op rest (s.withTurns ts) = .next t) := by
  have host : ∀ ts, HostNext s ts → ts = s.turns.tail → t = s.withTurns s.turns.tail ∨
      (∃ ts op rest, HostNext s ts ∧ ts = s.turns.tail ∧ s.host = op :: rest ∧
        hostAccess op rest (s.withTurns ts) = .next t) := by
    intro ts hn ht
    cases ho : s.host with
    | nil =>
      rw [step_host hn, hostTurn, State.withTurns_host, ho] at h
      cases h
      exact .inl (by rw [ht])
    | cons op rest => exact .inr ⟨ts, op, rest, hn, ht, rfl, by rw [← step_host_access hn ho]; exact h⟩
  cases htu : s.turns with
  | nil =>
    cases hp : s.pending with
    | none => exact .inr (.inr (htu ▸ host [] (.inr ⟨htu, rfl, hp⟩) (by simp [htu])))
    | some w =>
      have hn : EngineNext s [] := .inr ⟨htu, rfl, by simp [hp]⟩
      exact .inr (.inl ⟨[], w, hn, rfl, by rw [← step_engine hn hp]; exact h⟩)
  | cons a ts =>
    cases a with
    | host => exact .inr (.inr (htu ▸ host ts (.inl htu) (by simp [htu])))
    | engine =>
      cases hp : s.pending with
      | none =>
        simp only [step, oneTurn, htu, engineTurn, State.withTurns_pending, hp] at h
        cases h
        exact .inr (.inr (.inl rfl))
      | some w =>
        have hn : EngineNext s ts := .inl htu
        exact .inr (.inl ⟨ts, w, hn, rfl, by rw [← step_engine hn hp]; exact h⟩)
    | reset =>
      rw [step_reset htu] at h
      cases h
      exact .inl ⟨ts, rfl, rfl⟩

/-! Runs (Host/Core.lean). -/

theorem run_zero (s : State) : Host.Core.run Sys2Proof.core 0 s = .next s := rfl

/-- A run of any machine whose first step goes on. -/
theorem core_run_succ (M : Host.Core) (k : Nat) (s t : M.State) (h : M.step s = .next t) :
    M.run (k + 1) s = M.run k t := by
  simp only [Host.Core.run, h]

/-- A run whose first step goes on. -/
theorem run_succ_of_next {s t : State} (k : Nat) (h : step s = .next t) :
    Host.Core.run Sys2Proof.core (k + 1) s = Host.Core.run Sys2Proof.core k t :=
  core_run_succ Sys2Proof.core k s t h

/-- A run that goes on is followed by the next one, for any machine. -/
theorem core_run_add (M : Host.Core) (m n : Nat) (s t : M.State) (h : M.run m s = .next t) :
    M.run (m + n) s = M.run n t := by
  induction m generalizing s with
  | zero => cases h; rw [Nat.zero_add]
  | succ m ih =>
    rw [show m + 1 + n = m + n + 1 by omega]
    simp only [Host.Core.run] at h ⊢
    split at h
    · exact ih _ h
    · cases h
    · cases h

/-- A run that goes on is followed by the next one. -/
theorem run_add_of_next {s t : State} (m n : Nat) (h : Host.Core.run Sys2Proof.core m s = .next t) :
    Host.Core.run Sys2Proof.core (m + n) s = Host.Core.run Sys2Proof.core n t :=
  core_run_add Sys2Proof.core m n s t h

end Sys2Proof.Machine
end

