-- ==== Sys2Proof/Laws/HostProgram.lean ====
section
/-! SUPPORT. The host's sequences: when they exist, what their commands are, and how R132's check of a whole call passes to its
chunks (30_encoding.md R78, 41_update.md R137). -/

namespace Sys2Proof.Machine

/-- LOADDIN of bytes that fit the window (R78). -/
theorem hostLOADDIN_of_le (c : Config) {bytes : ByteSeq} (h : bytes.length ≤ 64) :
    hostLOADDIN c bytes = some ((List.range ((bytes.length + 3) / 4)).map fun i =>
      hostWR c (.din (Fin.ofNat 16 i)) (packBytes bytes)[Fin.ofNat 16 i]) := if_pos h

/-- The command of a chunk is well formed, with exactly the operands given (R77). -/
theorem updateInstr_some {len : Nat} {bitlen : Option Nat} {i : Instr} (h : updateInstr len bitlen = some i) :
    len ≤ 64 ∧ i.wellFormed = true ∧ ∃ l v x, i = .update l v x ∧ l.toNat = len ∧ v = bitlen.isSome ∧
      x.toNat = bitlen.getD 0 := by
  unfold updateInstr at h
  cases bitlen with
  | none =>
    simp only at h
    split at h
    · rename_i hl
      have hl : len ≤ 64 := hl
      have e : (BitVec.ofNat 7 len).toNat = len := by rw [BitVec.toNat_ofNat, Nat.mod_eq_of_lt (by omega)]
      cases h
      exact ⟨hl, by simp [Instr.wellFormed, lenLegal, bitlenLegal, e, Config.dinBytes, hl], _, _, _, rfl, e, rfl, rfl⟩
    · cases h
  | some b =>
    simp only at h
    split at h
    · rename_i hl
      have hl : len ≤ 64 ∧ b < 2 ^ 10 := hl
      have e : (BitVec.ofNat 7 len).toNat = len := by rw [BitVec.toNat_ofNat, Nat.mod_eq_of_lt (by omega)]
      cases h
      exact ⟨hl.1, by simp [Instr.wellFormed, lenLegal, bitlenLegal, e, Config.dinBytes, hl.1], _, _, _, rfl, e, rfl,
        by rw [BitVec.toNat_ofNat, Nat.mod_eq_of_lt hl.2]; rfl⟩
    · cases h

/-- A valid call's bits fill its bytes but for fewer than 8 (R132). -/
theorem callBits_bounds {len : Nat} {bitlen : Option Nat} {n : Nat} (h : callBits len bitlen = some n) :
    n ≤ 8 * len ∧ 8 * len < n + 8 ∧ ∀ b, bitlen = some b → b = n := by
  unfold callBits at h
  cases bitlen with
  | none => cases h; exact ⟨by omega, by omega, fun _ hb => by cases hb⟩
  | some b =>
    simp only at h
    split at h <;> split at h <;> cases h
    · exact ⟨by omega, by omega, fun _ hb => by cases hb; rfl⟩
    · exact ⟨by omega, by omega, fun _ hb => by cases hb; rfl⟩

/-- A valid call of up to 64 bytes has its command, and the command contributes the call's bits (R77, R132). -/
theorem updateInstr_of_callBits {len : Nat} {bitlen : Option Nat} {n : Nat} (h : callBits len bitlen = some n)
    (hl : len ≤ 64) : ∃ l v x, updateInstr len bitlen = some (.update l v x) ∧ l.toNat = len ∧
      updateBits l v x = some n := by
  have hb := callBits_bounds h
  have e : (BitVec.ofNat 7 len).toNat = len := by rw [BitVec.toNat_ofNat, Nat.mod_eq_of_lt (by omega)]
  cases bitlen with
  | none =>
    refine ⟨_, _, _, if_pos hl, e, ?_⟩
    cases h
    simp [updateBits, e]
  | some b =>
    obtain rfl := hb.2.2 b rfl
    have ex : (BitVec.ofNat 10 b).toNat = b := by rw [BitVec.toNat_ofNat, Nat.mod_eq_of_lt (by omega)]
    refine ⟨_, _, _, if_pos ⟨hl, by omega⟩, e, ?_⟩
    simpa [updateBits, callBits, e, ex] using h

/-- The call that remains after a full chunk is valid exactly with the bits that remain (R137: 512 is a multiple of 8). -/
theorem callBits_afterBlock {len : Nat} {bitlen : Option Nat} {n : Nat} (h : callBits len bitlen = some n)
    (hl : 64 < len) : 512 ≤ n ∧ ∃ b, bitlenAfterBlock bitlen = some b ∧ callBits (len - 64) b = some (n - 512) := by
  have hb := callBits_bounds h
  refine ⟨by omega, ?_⟩
  cases bitlen with
  | none => cases h; exact ⟨none, rfl, by simp [callBits]; omega⟩
  | some b =>
    obtain rfl := hb.2.2 b rfl
    refine ⟨_, if_pos (by omega), ?_⟩
    simp only [callBits] at h ⊢
    split at h <;> split at h
    · rw [if_pos (by omega), if_pos (by omega)]
    · cases h
    · rw [if_neg (by omega), if_pos (by omega)]
    · cases h

/-- The sequence of a chunk: its LOADDIN, then its UPDATE (R78). -/
theorem hostChunk_some {c : Config} {bytes : ByteSeq} {bitlen : Option Nat} {load : List HostOp} {i : Instr}
    (h1 : hostLOADDIN c bytes = some load) (h2 : updateInstr bytes.length bitlen = some i) :
    hostChunk c bytes bitlen = some (load ++ hostRUN c i) := by
  rw [hostChunk, h1, h2]
  rfl

/-- The sequence of a call of more than 64 bytes: a full chunk, then the rest (R137). -/
theorem hostUpdateCall_succ {c : Config} {f : Nat} {bytes : ByteSeq} {bitlen b : Option Nat} {first rest : List HostOp}
    (hl : 64 < bytes.length) (h1 : hostChunk c (bytes.take 64) none = some first) (h2 : bitlenAfterBlock bitlen = some b)
    (h3 : hostUpdateCall c f (bytes.drop 64) b = some rest) :
    hostUpdateCall c (f + 1) bytes bitlen = some (first ++ rest) := by
  rw [hostUpdateCall, if_pos hl, h1, h2, Option.bind_some, Option.bind_some, h3]
  rfl

/-- The sequence of a call of up to 64 bytes is that of one chunk (R78). -/
theorem hostUpdateCall_of_le (c : Config) (f : Nat) {bytes : ByteSeq} (bitlen : Option Nat) (hl : bytes.length ≤ 64) :
    hostUpdateCall c f bytes bitlen = hostChunk c bytes bitlen := by
  cases f with
  | zero => rfl
  | succ f => rw [hostUpdateCall, if_neg (by omega)]

end Sys2Proof.Machine
end

