-- ==== Sys2Proof/Laws/PerInstr.lean ====
section
/-! SUPPORT. The statements made instruction by instruction. -/

namespace Sys2Proof.Laws.TableRow

/-- The mask and the match of the command's row in spec/opcode_table.json (R71). -/
def row : Instr → Word × Word
  | .init => (0xFFFFFFFF, 0x00000001)
  | .update _ _ _ => (0xFC0000FF, 0x00000002)
  | .digest => (0xFFFFFFFF, 0x00000003)
  | .exportCk => (0xFFFFFFFF, 0x00000004)
  | .importCk => (0xFFFFFFFF, 0x00000005)

/-- The encoder keeps the fixed bits of the command's row, whatever the operands. -/
def Statement (i : Instr) : Prop := encode i &&& (row i).1 = (row i).2

theorem init : Statement .init := by unfold Statement; decide

theorem update (len : BitVec 7) (blv : Bool) (bitlen : BitVec 10) : Statement (.update len blv bitlen) := by
  apply BitVec.eq_of_getLsbD_eq
  intro i hi
  simp only [encode, row, BitVec.getLsbD_and, encodeUpdate_getLsbD]
  interval_cases i <;> simp

theorem digest : Statement .digest := by unfold Statement; decide

theorem exportCk : Statement .exportCk := by unfold Statement; decide

theorem importCk : Statement .importCk := by unfold Statement; decide

end Sys2Proof.Laws.TableRow
end

