-- ==== Sys2Proof/Laws/Window.lean ====
section
/-! SUPPORT. The register window: what an access selects, the number STATUS is, and everything a write can do (10_state.md
R30, R32, R41). -/

namespace Sys2Proof.Machine

/-- STATUS as a number: BUSY + 2 STATE + 8 OVR + 16 ERRCODE (R32). -/
theorem statusWord_toNat (s : State) :
    (statusWord s).toNat = s.pending.isSome.toNat + 2 * (stateField s.eng).toNat + 8 * s.ovr.toNat +
      16 * (errValue s.err).toNat := by
  simp only [statusWord, BitVec.toNat_append, BitVec.toNat_ofNat, BitVec.toNat_ofBool]
  have h1 := (stateField s.eng).isLt
  have h2 := (errValue s.err).isLt
  have h3 := s.pending.isSome.toNat_lt
  have h4 := s.ovr.toNat_lt
  rw [← Nat.shiftLeft_add_eq_or_of_lt (by omega), ← Nat.shiftLeft_add_eq_or_of_lt (by omega),
    ← Nat.shiftLeft_add_eq_or_of_lt (by omega), ← Nat.shiftLeft_add_eq_or_of_lt (by omega)]
  simp only [Nat.shiftLeft_eq]
  omega

/-- BUSY is bit 0 of STATUS (R32). -/
theorem statusWord_busy (s : State) : (statusWord s).getLsbD 0 = s.pending.isSome := by
  have h := statusWord_toNat s
  rw [BitVec.getLsbD, Nat.testBit_zero, h]
  cases s.pending.isSome <;> simp <;> omega

/-- STATUS depends on four fields only (R32). -/
theorem statusWord_congr (s t : State) (h1 : s.pending = t.pending) (h2 : s.eng = t.eng) (h3 : s.ovr = t.ovr)
    (h4 : s.err = t.err) : statusWord s = statusWord t := by
  simp only [statusWord, h1, h2, h3, h4]

/-! The map. -/

theorem shaBase_mod_four (c : Config) : c.shaBase % 4 = 0 := by
  unfold Config.shaBase
  omega

/-- An aligned 32-bit access in the window selects the register at its offset (R50, R55). -/
theorem selectReg_window (c : Config) (off : Nat) (h1 : off < 0x200) (h2 : off % 4 = 0) :
    selectReg c (c.shaBase + off) .w32 = .next (regAt off) := by
  have h4 := shaBase_mod_four c
  unfold selectReg Config.windowBytes
  rw [if_neg (by omega), if_neg (by simp), if_neg (by omega), Nat.add_sub_cancel_left]

/-- An access outside the window (log 7). -/
theorem selectReg_outside (c : Config) (addr : Nat) (w : AccessWidth)
    (h : addr < c.shaBase ∨ c.shaBase + 0x200 ≤ addr) : selectReg c addr w = .fault .noSuchAddress := by
  unfold selectReg Config.windowBytes
  rw [if_pos h]

/-- The offset of every register is aligned and in the window (R30). -/
theorem regOffset_lt (r : Reg) : regOffset r < 0x200 ∧ regOffset r % 4 = 0 := by
  cases r with
  | din i => revert i; decide
  | result i => revert i; decide
  | ckH i => revert i; decide
  | ckCache i => revert i; decide
  | _ => decide

/-- A register is found at its own offset (R30). -/
theorem regAt_regOffset (r : Reg) : regAt (regOffset r) = r := by
  cases r with
  | din i => revert i; decide
  | result i => revert i; decide
  | ckH i => revert i; decide
  | ckCache i => revert i; decide
  | _ => decide

/-- A register that is not reserved stands at the offset it was found at (R30). -/
theorem regOffset_regAt (off : Nat) (h : off % 4 = 0) : regAt off = .reserved ∨ regOffset (regAt off) = off := by
  unfold regAt
  repeat' split
  all_goals first
    | exact .inl rfl
    | exact .inr (by simp only [regOffset]; omega)

/-- The access the notation of R78 makes selects the register it names. -/
theorem selectReg_regAddr (c : Config) (r : Reg) : selectReg c (regAddr c r) .w32 = .next r := by
  rw [regAddr, selectReg_window c _ (regOffset_lt r).1 (regOffset_lt r).2, regAt_regOffset]

/-! Writes. -/

theorem storeOrOverrun_idle (s t : State) (h : s.pending = none) : storeOrOverrun s t = t := by
  simp only [storeOrOverrun, h]

theorem storeOrOverrun_busy (s t : State) (h : s.pending ≠ none) : storeOrOverrun s t = s.withOvr true := by
  unfold storeOrOverrun
  split
  · contradiction
  · rfl

/-- Everything a write can do while a command is pending: nothing, or the overrun flag (R41). -/
theorem writeReg_busy (r : Reg) (v : Word) (s : State) (h : s.pending ≠ none) :
    writeReg r v s = s ∨ writeReg r v s = s.withOvr true := by
  cases r <;> simp [writeReg, storeOrOverrun_busy _ _ h]

/-- What no write touches (R195). -/
theorem writeReg_frame (r : Reg) (v : Word) (s : State) :
    (writeReg r v s).eng = s.eng ∧ (writeReg r v s).err = s.err ∧ (writeReg r v s).config = s.config ∧
      (writeReg r v s).host = s.host ∧ (writeReg r v s).reads = s.reads ∧ (writeReg r v s).turns = s.turns := by
  by_cases h : s.pending = none
  · cases r <;> simp [writeReg, storeOrOverrun_idle _ _ h]
  · rcases writeReg_busy r v s h with e | e <;> rw [e] <;> simp

/-- A write never lowers the overrun flag, and never takes a pending command away (R41, R207). -/
theorem writeReg_ovr (r : Reg) (v : Word) (s : State) (h : s.ovr = true) : (writeReg r v s).ovr = true := by
  by_cases hp : s.pending = none
  · cases r <;> simp [writeReg, storeOrOverrun_idle _ _ hp, h]
  · rcases writeReg_busy r v s hp with e | e <;> rw [e] <;> simp [h]

end Sys2Proof.Machine
end

