-- ==== Sys2Proof/Tests/Slice0.lean ====
section
/-! SUPPORT. The model's own tests, expected values taken from the vectors of 95_test_vectors.md and the outcome tables of
41_update.md R140, 42_finalize.md R159 and 43_checkpoint.md R180; and, for every obligation with hypotheses, a witness that
meets them. -/

namespace Sys2Proof.Tests

open Sys2Proof.Machine

/-! ## Small states -/

/-- A state at base address 0 with the given engine, nothing pending and nothing scheduled. -/
def st (e : Engine) : State := { State.reset with eng := e, config := ⟨0, true⟩ }

/-- A fresh engine. -/
def fresh : State := st .fresh

/-- A DIN window that starts with the given words. -/
def din (ws : List Word) : Vector Word 16 := Vector.ofFn fun i => ws.getD i.val 0

/-- A DIN window of 16 equal words. -/
def dinAll (w : Word) : Vector Word 16 := Vector.replicate 16 w

/-- `n` bytes 0x61 ("a"). -/
def as (n : Nat) : ByteSeq := List.replicate n 0x61

/-- A live engine at IV. -/
def liveAt (t : DWord) (c : ByteSeq) : Engine := .live initialH t c

/-- What an outcome's next state shows; none where the machine stops. -/
def seen {α : Type} (o : Result) (f : State → α) : Option α :=
  match o with
  | .next s => some (f s)
  | .fault _ => none
  | .refused _ => none

/-- Where an outcome stops with a fault. -/
def faultOf (o : Result) : Option Fault :=
  match o with
  | .next _ => none
  | .fault f => some f
  | .refused _ => none

/-- Where an outcome is a refusal. -/
def refusalOf (o : Result) : Option Refusal :=
  match o with
  | .next _ => none
  | .fault _ => none
  | .refused q => some q

/-- The decoder's command, or none. -/
def decoded (w : Word) : Option Instr := (decode w).toOption

/-! ## WellFormed (R73) -/

theorem test_wellFormed_len_65_refused : (Instr.update 65 false 0).wellFormed = false := by decide
theorem test_wellFormed_len_64_accepted : (Instr.update 64 true 1023).wellFormed = true := by decide
theorem test_wellFormed_bitlen_without_blv_refused : (Instr.update 1 false 1).wellFormed = false := by decide

/-! ## Decode (95_test_vectors.md 2.3; the words are written out from the fields of R70) -/

theorem test_decode_init : decoded 0b00000000000000000000000000000001 = some .init := by decide
/-- LEN = 64, BLV = 1, BITLEN = 511: 000000 0111111111 1 1000000 0000 0010. -/
theorem test_decode_update : decoded 0b00000001111111111100000000000010 = some (.update 64 true 511) := by decide
theorem test_decode_digest : decoded 0b00000000000000000000000000000011 = some .digest := by decide
theorem test_decode_export : decoded 0b00000000000000000000000000000100 = some .exportCk := by decide
theorem test_decode_import : decoded 0b00000000000000000000000000000101 = some .importCk := by decide
theorem test_decode_illegal :
    [0x00000000, 0x00000006, 0x0000000F, 0x00000011, 0x00000101, 0x80000003, 0x00004102, 0x00007F02, 0x00010002,
      0x04000002].map decoded = List.replicate 10 none := by decide
theorem test_encode_update : encode (.update 1 true 2) = 0x00028102 := by decide
/-- A word of the table, and what `withFetchWord` makes the very next step run from reset. -/
theorem test_table_word : decodeTableWord 32 0x00088202 = some (.update 2 true 8) ∧
    seen (step (State.reset.withFetchWord 32 0x00088202)) (fun s => (s.err, s.pending)) = some (.invalidBitLength, none) := by
  decide

/-! ## The datapath (95_test_vectors.md 2.1, 2.2) -/

/-- Row 6a09e667 of section 2.1. -/
theorem test_mixing_functions :
    (bigSigma0 0x6a09e667, bigSigma1 0x6a09e667, smallSigma0 0x6a09e667, smallSigma1 0x6a09e667) =
      (0xce20b47e, 0x55b65510, 0xba0cf582, 0xcfe5da3c) := by decide
theorem test_ch_maj : ch 0x510e527f 0x9b05688c 0x1f83d9ab = 0x1f85c98c ∧ maj 0x6a09e667 0xbb67ae85 0x3c6ef372 = 0x3a6fe667 := by
  decide

/-- The padded block of "abc" (S4). -/
def abcBlock : ByteSeq := [0x61, 0x62, 0x63, 0x80] ++ zeros 59 ++ [0x18]

set_option maxRecDepth 100000 in
/-- The schedule of S4: W[16] to W[23] and W[63]. -/
theorem test_schedule_abc :
    ((schedule abcBlock).drop 16).take 8 = [0x61626380, 0x000f0000, 0x7da86405, 0x600003c6, 0x3e9d7b78, 0x0183fc00,
      0x12dcbfdb, 0xe2e2c38e] ∧ (schedule abcBlock).getD 63 0 = 0x12b1edeb := by decide

set_option maxRecDepth 100000 in
/-- S3: all ones everywhere. -/
theorem test_compress_all_ones :
    compress (Vector.replicate 8 0xffffffff) (List.replicate 64 0xff) = #v[0x0598127a, 0xaf11706e, 0x77401fff, 0xd730c549,
      0x0b84c867, 0xa98c6ca3, 0xd7f3c0f9, 0x06a78b79] := by decide

/-! ## The commands, one step each -/

/-- 2.7: INIT from FINAL with OVR = 1. -/
theorem test_init_from_final :
    seen (exec .init { st (.final (Vector.replicate 8 7) 24) with ovr := true })
      (fun s => (s.eng, s.ovr, readReg .status s, readReg (.result 0) s)) = some (liveAt 0 [], false, 0, 0) := by decide

/-- 2.4: LIVE T = 504, 63 bytes cached, UPDATE 1, bitlen = 1: the full block is withheld. -/
theorem test_update_withholds :
    seen (exec (.update 1 true 1) { st (liveAt 504 (as 63)) with din := dinAll 0xBF000000 })
      (fun s => (s.eng, readReg .status s)) = some (liveAt 505 (as 63 ++ [0xBF]), 2) := by decide

set_option maxRecDepth 100000 in
/-- 2.4: the same start, UPDATE 64: one compression, T = 1016, 63 bytes cached, the last 63 of DIN. -/
theorem test_update_drains :
    seen (exec (.update 64 false 0) { st (liveAt 504 (as 63)) with din := din [0x62636364] })
      (fun s => match s.eng with
        | .live h t c => (decide (h = compress initialH (as 63 ++ [0x62])), t, c)
        | .final _ _ => (false, 0, [])
        | .fatal => (false, 0, [])) = some (true, 1016, [0x63, 0x63, 0x64] ++ zeros 60) := by decide

set_option maxRecDepth 100000 in
/-- D3: "abc". -/
theorem test_digest_abc :
    seen (exec .digest (st (liveAt 24 [0x61, 0x62, 0x63]))) (fun s => s.eng) =
      some (.final #v[0xba7816bf, 0x8f01cfea, 0x414140de, 0x5dae2223, 0xb00361a3, 0x96177a9c, 0xb410ff61, 0xf20015ad] 24) := by
  decide

set_option maxRecDepth 100000 in
/-- D12: byte BF, 2 bits, CLEAR_TRAILING_BITS = false: the excess bits stay in the block. -/
theorem test_digest_keeps_excess_bits :
    seen (exec .digest { st (liveAt 2 [0xBF]) with config := ⟨0, false⟩ }) (fun s => s.eng) =
      some (.final #v[0x5088228c, 0x65d80733, 0xb14efb67, 0x35fbf072, 0x6da18df3, 0x29eccfe9, 0x3b7eebad, 0x1d457026] 2) := by
  decide

/-- 2.6: EXPORT after UPDATE 2 ("ab"). -/
theorem test_export_ab :
    seen (exec .exportCk (st (liveAt 0x10 [0x61, 0x62]))) (fun s => s.ck) =
      some ⟨0, 2, 0x10, 0, initialH, din [0x61620000]⟩ := by decide

/-- 2.6: EXPORT after UPDATE 64, bitlen = 511: the length 64 fits CK_CACHE_LEN. -/
theorem test_export_withheld :
    seen (exec .exportCk (st (liveAt 511 (as 64)))) (fun s => s.ck) =
      some ⟨0, 64, 0x1FF, 0, initialH, dinAll 0x61616161⟩ := by decide

/-- R180, row (0, 64, 511): accepted, PARTIAL. -/
theorem test_import_partial :
    seen (exec .importCk { fresh with ck := ⟨0, 64, 511, 0, initialH, dinAll 0x61616161⟩ })
      (fun s => (s.eng, readReg .status s)) = some (liveAt 511 (as 64), 2) := by decide

/-- R180, row (0, 64, 512): code 6, unchanged. -/
theorem test_import_refuses :
    seen (exec .importCk { fresh with ck := ⟨0, 64, 512, 0, initialH, dinAll 0x61616161⟩ })
      (fun s => (s.eng, readReg .status s)) = some (liveAt 0 [], 0x60) := by decide

set_option maxRecDepth 100000 in
/-- The padding table of R159, all 13 rows: the padded length. -/
theorem test_padded_lengths :
    [(0, 0), (1, 1), (2, 1), (24, 3), (440, 55), (447, 56), (448, 56), (449, 57), (504, 63), (505, 64), (511, 64), (512, 0),
      (513, 1)].map (fun x => (padCache true x.1 (as x.2)).map List.length) =
    [64, 64, 64, 64, 64, 64, 128, 128, 128, 128, 128, 64, 64].map some := by decide

/-- The table of expected_len in 2.4. -/
theorem test_expectedLen :
    [0, 1, 7, 8, 9, 24, 504, 505, 511, 512, 513, 1023, 1024, 1025].map expectedLen =
    [0, 1, 1, 1, 2, 3, 63, 64, 64, 0, 1, 64, 0, 1] := by decide

/-! ## The host -/

/-- P7 with the write of step 4 while BUSY = 1: it is discarded and OVR is set. -/
theorem test_overrun :
    seen (step { st (liveAt 0 []) with
        pending := some 0x302, din := din [0x61626300], turns := [.host], host := [.write 0x40 .w32 0x78787800] })
      (fun s => (s.din, s.ovr, s.pending)) = some (din [0x61626300], true, some 0x302) := by decide

/-- The same write before the CMD write is stored. -/
theorem test_write_din :
    seen (step { fresh with host := [.write 0x40 .w32 0x78787800] }) (fun s => (readReg (.din 0) s, s.ovr)) =
      some (0x78787800, false) := by decide

/-- STATUS of a busy engine, by the bus. -/
theorem test_read_status :
    seen (step { st (.final (Vector.replicate 8 7) 24) with
        pending := some 3, ovr := true, err := .updateAfterDigest, turns := [.host], host := [.read 4 .w32] }) (fun s => s.reads) = some [⟨4, 0x4D⟩] := by decide

/-- The LOADDIN of P6's first bytes, padded with zeros. -/
theorem test_loaddin : hostLOADDIN ⟨0, true⟩ [0x61, 0x62, 0x63, 0x64, 0x62] =
    some [.write 0x40 .w32 0x61626364, .write 0x44 .w32 0x62000000] := by decide

/-- The CMD words of a source call, or none. -/
def cmdWords (n : Nat) (bitlen : Option Nat) : Option (List Word) :=
  (hostUpdate ⟨0, true⟩ (as n) bitlen).map fun ops => ops.filterMap fun op =>
    match op with
    | .write a _ v => if a = 0 then some v else none
    | .read _ _ => none
    | .wait => none

set_option maxRecDepth 100000 in
/-- R137 by hand: 65 bytes with 513 bits are UPDATE 64 and UPDATE 1, bitlen = 1; 64 bytes with 512 bits are one command. -/
theorem test_update_call_chunks :
    cmdWords 65 (some 513) = some [0x00004002, 0x00018102] ∧ cmdWords 64 (some 512) = some [0x0200C002] ∧
    cmdWords 0 none = some [0x00000002] := by decide

set_option maxRecDepth 100000 in
/-- Calls whose last bit length has no encoding have no sequence, those that R132 rejects are not issued by a host that checks
(log 19). -/
theorem test_update_call_invalid :
    cmdWords 1 (some 1032) = none ∧ cmdWords 128 (some 2048) = none ∧ cmdWords 65 (some 511) = none ∧
    cmdWords 2 (some 8) = some [0x00088202] ∧ (hostCheckedUpdate ⟨0, true⟩ (as 2) (some 8)).isSome = false := by decide

/-! ## Witnesses: states and operands that meet the hypotheses of the obligations -/

/-- DecodeOfEncode, PlacedCommandRunsNext: the extreme operands, in states with and without turns. -/
theorem witness_wellFormed :
    (Instr.update 0 false 0).wellFormed = true ∧ (Instr.update 64 true 1023).wellFormed = true ∧
    (Instr.update 0 true 1023).wellFormed = true ∧ Instr.init.wellFormed = true ∧ Instr.digest.wellFormed = true ∧
    Instr.exportCk.wellFormed = true ∧ Instr.importCk.wellFormed = true := by decide

/-- EncodeOfDecode, IllegalWordsCommitWithCode5: a legal word, and one illegal word for each clause of R74. -/
theorem witness_decode :
    decode 0x03FFC002 = .ok (.update 64 true 1023) ∧ decode 0x6 = .error .reservedOp ∧ decode 0xF2 = .error .rsv0 ∧
    decode 0x101 = .error .operandBits ∧ decode 0x04000002 = .error .rsv1 ∧ decode 0x4102 = .error .lenTooLarge ∧
    decode 0x00010002 = .error .bitlenWithoutBlv := by decide

/-- StepCommitsTheDecodedCommand, EngineChangesOnlyAtCommitOrReset: the engine moves, scheduled or by priority. -/
theorem witness_engineNext :
    EngineNext { fresh with pending := some 1, turns := [.engine, .host] } [.host] ∧
    EngineNext { fresh with pending := some 0 } [] ∧ decode 1 = .ok .init ∧ decode 0 = .error .reservedOp :=
  ⟨.inl rfl, .inr ⟨rfl, rfl, by decide⟩, by decide, by decide⟩

/-- PendingCommandComesToItsCommit: a pending command with the host scheduled twice before it. -/
theorem witness_pending :
    ({ fresh with pending := some 3, turns := [.host, .host], host := [.write 0 .w32 1] } : State).pending = some 3 := rfl

/-- HostCannotTouchAPendingCommand: a CMD write while BUSY, with OVR already set. -/
theorem witness_host_busy :
    let s := { fresh with pending := some 3, ovr := true, turns := [.host], host := [.write 0 .w32 1] }
    s.pending ≠ none ∧ s.turns = .host :: [] ∧ s.ovr = true ∧
      step s = .next { s with turns := [], host := [] } := ⟨by decide, rfl, rfl, rfl⟩

/-- PlatformResetAbandonsThePendingCommand, FinalDigestIsFrozen: the platform resets a FINAL engine with a pending command. -/
theorem witness_reset_turn :
    let s := { st (.final (Vector.replicate 8 7) 24) with pending := some 3, ovr := true, turns := [.reset, .host] }
    s.turns = .reset :: [.host] ∧ s.eng = .final (Vector.replicate 8 7) 24 ∧ ∃ t, step s = .next t ∧ t.eng ≠ s.eng :=
  ⟨rfl, rfl, _, rfl, by decide⟩

/-- A state whose host reads at an offset. -/
def reading (off : Nat) : State := { fresh with host := [.read off .w32] }

/-- A state whose host writes at an offset, idle or busy. -/
def writing (off : Nat) (v : Word) (p : Option Word) : State :=
  { fresh with host := [.write off .w32 v], pending := p, turns := [.host] }

/-- HostReadReturnsTheRegister, HostWriteStoresOrIsDiscarded: every offset is reached, idle and busy. -/
theorem witness_host_access (off : Nat) (v : Word) :
    HostNext (reading off) [] ∧ (reading off).host = .read ((reading off).config.shaBase + off) .w32 :: [] ∧
    HostNext (writing off v none) [] ∧ (writing off v none).pending = none ∧
    HostNext (writing off v (some 3)) [] ∧ (writing off v (some 3)).pending ≠ none ∧
    (writing off v (some 3)).host = .write ((writing off v (some 3)).config.shaBase + off) .w32 v :: [] := by
  have h : (⟨0, true⟩ : Config).shaBase + off = off := Nat.zero_add off
  refine ⟨.inr ⟨rfl, rfl, rfl⟩, ?_, .inl rfl, rfl, .inl rfl, Option.some_ne_none 3, ?_⟩
  · exact congrArg (fun a => [HostOp.read a .w32]) h.symm
  · exact congrArg (fun a => [HostOp.write a .w32 v]) h.symm

/-- The same two: the first and the last offset of every range of their clauses, each inside the window and aligned, and the
register it selects. -/
theorem witness_offsets :
    ∀ x ∈ [(0x000, Reg.cmd), (0x004, .status), (0x008, .reserved), (0x03C, .reserved), (0x040, .din 0), (0x07C, .din 15),
      (0x080, .result 0), (0x09C, .result 7), (0x0A0, .reserved), (0x0FC, .reserved), (0x100, .ckShape),
      (0x104, .ckCacheLen), (0x108, .ckTotalLo), (0x10C, .ckTotalHi), (0x110, .reserved), (0x11C, .reserved),
      (0x120, .ckH 0), (0x13C, .ckH 7), (0x140, .ckCache 0), (0x17C, .ckCache 15), (0x180, .reserved), (0x1FC, .reserved)],
      x.1 < 0x200 ∧ x.1 % 4 = 0 ∧ regAt x.1 = x.2 := by decide

/-- ReservedOffset at the ends of its ranges, and not at their neighbours (HostReadReturnsTheRegister,
HostWriteStoresOrIsDiscarded, RegisterMap). -/
theorem witness_reserved :
    (∀ o ∈ [0x008, 0x03C, 0x0A0, 0x0FC, 0x110, 0x11C, 0x180, 0x1FC], ReservedOffset o) ∧
    (∀ o ∈ [0x000, 0x004, 0x040, 0x07C, 0x080, 0x09C, 0x100, 0x10C, 0x120, 0x17C], ¬ReservedOffset o) := by
  unfold ReservedOffset
  decide

/-- RESULT in FINAL mode and elsewhere (HostReadReturnsTheRegister), by the bus. -/
theorem witness_result_read :
    seen (step { st (.final #v[0, 1, 2, 3, 4, 5, 6, 7] 0) with host := [.read 0x9C .w32] }) (fun s => s.reads) =
      some [⟨0x9C, 7⟩] ∧
    seen (step { st .fatal with host := [.read 0x9C .w32] }) (fun s => s.reads) = some [⟨0x9C, 0⟩] := by decide

/-- StatusReadsItsFields: one state for each mode and each code. -/
theorem witness_status :
    (st (liveAt 8 [0])).eng = .live initialH 8 [0] ∧ (st (liveAt 9 [0, 0])).eng = .live initialH 9 [0, 0] ∧
    (st (.final initialH 0)).eng = .final initialH 0 ∧ (st .fatal).eng = .fatal ∧
    (∀ c ∈ [ErrCode.ok, .invalidBitLength, .lateUpdateAfterPartialByte, .corruptPaddingState, .updateAfterDigest,
      .invalidCommand, .invalidCheckpoint], ({ fresh with err := c } : State).err = c) := ⟨rfl, rfl, rfl, rfl, fun _ _ => rfl⟩

/-- ReadAfterWrite: the two masked registers and an unmasked one. -/
theorem witness_readAfterWrite :
    fresh.pending = none ∧ ∀ r ∈ [Reg.ckShape, .ckCacheLen, .ckCache 15, .din 0],
      r ≠ .cmd ∧ r ≠ .status ∧ r ≠ .reserved ∧ ∀ i, r ≠ .result i := by decide

/-- UnsupportedAccessHasNoStep: just below and just above the window, every other width, and a misaligned address. -/
theorem witness_unsupported :
    let s := { fresh with config := ⟨1, true⟩, host := [.read 0x1FC .w32] }
    HostNext s [] ∧ 0x1FC < s.config.shaBase ∧ s.config.shaBase + 0x200 ≤ 0x400 ∧ s.config.shaBase ≤ 0x200 ∧
    faultOf (step s) = some .noSuchAddress ∧
    faultOf (step { s with host := [.write 0x400 .w32 0] }) = some .noSuchAddress ∧
    refusalOf (step { s with host := [.write 0x200 .w8 0] }) = some .unsupportedWidth ∧
    refusalOf (step { s with host := [.read 0x3FC .w64] }) = some .unsupportedWidth ∧
    refusalOf (step { s with host := [.read 0x3FF .w32] }) = some .misaligned :=
  ⟨.inr ⟨rfl, rfl, rfl⟩, by decide⟩

/-- WaitPollsWhileBusy: idle, and busy with the host scheduled. -/
theorem witness_wait :
    HostNext { fresh with host := [.wait] } [] ∧
    HostNext { fresh with host := [.wait], pending := some 3, turns := [.host] } [] ∧
    ({ fresh with host := [.wait], pending := some 3, turns := [.host] } : State).pending ≠ none :=
  ⟨.inr ⟨rfl, rfl, rfl⟩, .inl rfl, by decide⟩

/-- RunWritesCommitsAndWaits: `RUN INIT` followed by a read. -/
theorem witness_run :
    let s := { fresh with host := hostRUN ⟨0, true⟩ .init ++ [HostOp.read 4 .w32] }
    s.turns = [] ∧ s.pending = none ∧ s.host = hostRUN s.config .init ++ [HostOp.read 4 .w32] ∧
    ∃ t, exec .init { s with host := [.wait, .read 4 .w32], pending := some (encode .init) } = .next t :=
  ⟨rfl, rfl, rfl, _, rfl⟩

/-- LoadDinPlacesTheBytes: an idle engine with the sequence of 64 bytes, of 5 bytes (both clauses of DIN words), and of none. -/
theorem witness_loaddin :
    ∀ n ∈ [64, 5, 0], (as n).length ≤ 64 ∧ ∃ ops, hostLOADDIN ⟨0, true⟩ (as n) = some ops ∧
      ∃ s : State, s.config = ⟨0, true⟩ ∧ s.turns = [] ∧ s.pending = none ∧ s.host = ops ++ [HostOp.wait] := by
  intro n hn
  have h : (as n).length ≤ 64 := by revert n; decide
  exact ⟨h, _, if_pos h, { fresh with host := _ ++ [HostOp.wait] }, rfl, rfl, rfl, rfl⟩

set_option maxRecDepth 100000 in
/-- HostUpdateExtendsTheMessage: accepted calls of one chunk, of two with a partial end, and of none, on a fresh idle engine. -/
theorem witness_update_call :
    fresh.eng.Holds [] 0 ∧ fresh.turns = [] ∧ fresh.pending = none ∧ callBits (as 3).length none = some 24 ∧
    callBits (as 65).length (some 513) = some 513 ∧ callBits (as 0).length (some 0) = some 0 ∧
    (hostCheckedUpdate fresh.config (as 65) (some 513)).isSome = true :=
  ⟨⟨rfl, rfl, rfl, 0, rfl, rfl, rfl⟩, rfl, rfl, by decide⟩

set_option maxRecDepth 100000 in
/-- CacheFitsItsCapacity: the 63 cached bytes that a full append takes to 127, and the 64 that padding takes to 128. -/
theorem witness_capacity :
    (as 63).length = expectedLen (504 : DWord).toNat ∧ (504 : DWord).toNat % 8 = 0 ∧ lenLegal 64 = true ∧
    (as 63 ++ chunk 64 fresh).length = 127 ∧ (as 64).length = expectedLen (511 : DWord).toNat ∧
    (padCache true 511 (as 64)).map List.length = some Config.cacheMax := by decide

/-- ChoiceAndMajorityBits, MixingFunctionBits, PaddingBitIsSetAtTheShift, WindowByteOrder: the first and last positions. -/
theorem witness_positions :
    (0 : Nat) < 32 ∧ (31 : Nat) < 32 ∧ (0 : Nat) < 1 ∧ (1 : Nat) < 8 ∧ (7 : Nat) < 8 ∧ (3 : Nat) < 4 ∧
    (512 : Nat) % 8 = 0 ∧ (505 : Nat) % 8 ≠ 0 ∧
    (as 64).length ≤ 64 := by decide

/-- ScheduleRecurrence, CompressionIsSixtyFourRounds: a block, and the indices where the clauses meet. -/
theorem witness_block : (zeros 64).length = 64 ∧ (15 : Nat) < 16 ∧ (16 : Nat) ≤ 16 ∧ (63 : Nat) < 64 := by decide

/-- ConstantsAreRootFractions: the first and the last prime of each table. -/
theorem witness_primes :
    Nat.Prime 2 ∧ Nat.count Nat.Prime 2 = 0 ∧ Nat.Prime 311 ∧ Nat.count Nat.Prime 311 = 63 ∧ Nat.Prime 19 ∧
    Nat.count Nat.Prime 19 = 7 := by decide +kernel

/-- UpdateChecksInOrder, UpdateBitLengthCheck, EmptyUpdateIsANoOp: one state and operands for each check, and the bit lengths
at the edges of R132. -/
theorem witness_update_checks :
    (st .fatal).eng = .fatal ∧ (st (.final initialH 8)).eng = .final initialH 8 ∧
    (st (liveAt 1 [0])).eng = .live initialH 1 [0] ∧ (1 : DWord).toNat % 8 ≠ 0 ∧
    fresh.eng = .live initialH 0 [] ∧ (0 : DWord).toNat % 8 = 0 ∧ updateBits 64 true 504 = none ∧
    updateBits 64 true 505 = some 505 ∧ updateBits 64 true 511 = some 511 ∧ updateBits 64 true 512 = some 512 ∧
    updateBits 1 true 9 = none ∧ updateBits 2 true 8 = none ∧ updateBits 2 true 7 = none ∧ updateBits 0 true 3 = none ∧
    updateBits 0 true 0 ≠ none ∧ updateBits 0 false 0 ≠ none := by decide

set_option maxRecDepth 100000 in
/-- UpdateAppendsCountsAndDrains: the four lengths, below 64, exactly 64 aligned and withheld, above 64, and a cache that was
not empty. -/
theorem witness_update_appends :
    (st (liveAt 0 [])).Inv ∧ (st (liveAt 504 (as 63))).Inv ∧
    (st (liveAt 504 (as 63))).eng = .live initialH 504 (as 63) ∧ (504 : DWord).toNat % 8 = 0 ∧
    updateBits 1 true 7 = some 7 ∧ ([] ++ (windowBytes (dinAll 0)).take 1 : ByteSeq).length < 64 ∧
    updateBits 1 false 0 = some 8 ∧ (as 63 ++ (windowBytes (dinAll 0)).take 1).length = 64 ∧ (8 : Nat) % 8 = 0 ∧
    updateBits 1 true 1 = some 1 ∧ (1 : Nat) % 8 ≠ 0 ∧
    updateBits 64 false 0 = some 512 ∧ 64 < (as 63 ++ (windowBytes (dinAll 0)).take 64).length ∧
    (504 : DWord).toNat + 512 < 2 ^ 64 := ⟨rfl, rfl, by decide⟩

/-- OnlyCounterOverflowFaults: the largest byte-aligned count and one more byte; and a bit count that just fits. -/
theorem witness_overflow :
    faultOf (exec (.update 1 false 0) (st (liveAt 0xFFFFFFFFFFFFFFF8 (as 63)))) = some .counterOverflow ∧
    seen (exec (.update 1 true 7) (st (liveAt 0xFFFFFFFFFFFFFFF8 (as 63)))) (fun s => s.eng.counter) =
      some (some 0xFFFFFFFFFFFFFFFF) := by decide

set_option maxRecDepth 100000 in
/-- CommandsWriteOnlyTheirFields, CommandsReadOnlyTheirFields, CounterNeverDecreases, ErrorsDoNotCorrupt: each command answers
a next state. -/
theorem witness_commands_answer :
    [Instr.init, .update 1 true 1, .digest, .exportCk, .importCk].map (fun i => (seen (exec i fresh) (fun s => s.err))) =
      [some .ok, some .ok, some .ok, some .ok, some .ok] := by decide

/-- ErrorsDoNotCorrupt: codes 1, 2, 4, 6, code 3 in FATAL and code 3 elsewhere, an error in FINAL. -/
theorem witness_errors :
    seen (exec (.update 2 true 8) fresh) (fun s => s.err) = some .invalidBitLength ∧
    seen (exec (.update 1 false 0) (st (liveAt 1 [0]))) (fun s => s.err) = some .lateUpdateAfterPartialByte ∧
    seen (exec (.update 1 false 0) (st (.final initialH 8))) (fun s => s.err) = some .updateAfterDigest ∧
    seen (exec .importCk { fresh with ck := ⟨0, 1, 0, 0, initialH, dinAll 0⟩ }) (fun s => s.err) = some .invalidCheckpoint ∧
    seen (exec .exportCk (st .fatal)) (fun s => s.err) = some .corruptPaddingState ∧
    seen (exec .digest (st (liveAt 1 []))) (fun s => (s.err, s.eng)) = some (.corruptPaddingState, .fatal) := by decide

/-- CommandsReadOnlyTheirFields: two states that agree on DIN and the engine only, and two that agree on CK_* only. -/
theorem witness_two_states :
    let s := { fresh with ovr := true, err := .invalidCommand, ck := ⟨1, 3, 4, 5, initialH, dinAll 1⟩ }
    s.eng = fresh.eng ∧ s.din = fresh.din ∧ s.config.clearTrailingBits = fresh.config.clearTrailingBits ∧ s.eng ≠ .fatal ∧
    ({ st .fatal with ck := s.ck } : State).ck = s.ck := ⟨rfl, rfl, rfl, by decide, rfl⟩

/-- ChunksAbsorbAsOne: an empty second chunk, a partial one, and a full block. -/
theorem witness_chunks :
    (512 : DWord).toNat % 8 = 0 ∧ ([] : ByteSeq).length = (0 + 7) / 8 ∧ ([0xA0] : ByteSeq).length = (3 + 7) / 8 ∧
    (as 64).length = (505 + 7) / 8 := by decide

/-- UpdateExtendsTheMessage, DigestIsSha256OfTheMessage: the engine holds the 3 bits 101, and a withheld block of 511 bits;
excess bits cleared, or zero. -/
theorem witness_holds :
    (liveAt 0 []).Holds [] 0 ∧ (liveAt 3 [0xBF]).Holds [0xBF] 3 ∧ (liveAt 511 (as 64)).Holds (as 64) 511 ∧
    (st (liveAt 3 [0xBF])).config.clearTrailingBits = true ∧ (∀ b ∈ (bitsOf [0xA0]).drop 3, b = false) ∧
    updateBits 1 true 3 = some 3 ∧ 0 + 3 < 2 ^ 64 :=
  ⟨⟨rfl, rfl, rfl, 0, rfl, rfl, rfl⟩, ⟨rfl, rfl, rfl, 0, rfl, rfl, rfl⟩, ⟨rfl, rfl, rfl, 0, rfl, rfl, rfl⟩, by decide⟩

set_option maxRecDepth 100000 in
/-- DigestFinalizes, PaddedCacheIsTheStandardPadding, ResetIsSafe: safe caches on both sides of 448 bits and a full one. -/
theorem witness_safe_caches :
    (st (liveAt 447 (as 56))).Inv ∧ (st (liveAt 448 (as 56))).Inv ∧ (st (liveAt 511 (as 64))).Inv ∧
    (as 56).length = expectedLen (448 : DWord).toNat ∧ (padCache true 447 (as 56)).map List.length = some 64 ∧
    (padCache true 448 (as 56)).map List.length = some 128 ∧ (as 64).length = 64 := ⟨rfl, rfl, rfl, by decide⟩

/-- CorruptPaddingEntersFatal: both ways, an empty cache of a partial state and a cache of the wrong length. -/
theorem witness_corrupt :
    ((1 : DWord).toNat % 8 ≠ 0 ∧ (st (liveAt 1 [])).eng = .live initialH 1 []) ∧
    (∀ p, p = ([] : ByteSeq).length + (if (8 : DWord).toNat % 8 = 0 then 1 else 0) +
        (if (8 : DWord).toNat % 512 < 448 then 55 - (8 : DWord).toNat % 512 / 8 else 119 - (8 : DWord).toNat % 512 / 8) + 8 →
      p ≠ 64 ∧ p ≠ 128) ∧
    seen (exec .digest (st (liveAt 8 []))) (fun s => s.eng) = some .fatal := by
  refine ⟨by decide, ?_, by decide⟩
  rintro p rfl
  decide

/-- DigestIsMemoized, FatalModeAnswers: FINAL, and FATAL left by IMPORT. -/
theorem witness_modes :
    (st (.final initialH 8)).eng = .final initialH 8 ∧ (st .fatal).eng = .fatal ∧
    decode 0 = .error .reservedOp ∧
    seen (exec .importCk { st .fatal with ck := ⟨1, 127, 1, 0, initialH, dinAll 0⟩ }) (fun s => (s.eng, s.err)) =
      some (.final initialH 1, .ok) := by decide

/-- ExportWritesTheRecord, ImportReplacesTheEngine, ImportRederivesPartial, ExportImportRoundTrip: a full cache, and records
of each kind. -/
theorem witness_records :
    (st (liveAt 511 (as 64))).eng = .live initialH 511 (as 64) ∧ (as 64).length ≤ 64 ∧ (st (liveAt 511 (as 64))).Inv ∧
    (let ck : Checkpoint := ⟨0, 64, 511, 0, initialH, dinAll 0x61616161⟩
     ck.shape = 0 ∧ ck.cacheLen.toNat = expectedLen 511 ∧ ck.totalLo.toNat % 8 ≠ 0 ∧
     seen (exec .importCk { fresh with ck := ck }) (fun s => s.err) = some .ok) ∧
    (let ck : Checkpoint := ⟨0, 65, 0, 0, initialH, dinAll 0⟩
     ck.shape = 0 ∧ ck.cacheLen.toNat ≠ expectedLen 0) := ⟨rfl, by decide, rfl, by decide, by decide⟩

/-- StepKeepsTheInvariant, CounterNeverDecreases, EngineChangesOnlyAtCommitOrReset, StepKeepsTheParameters: a safe state whose
step commits INIT, with OVR set. -/
theorem witness_step :
    let s := { st (liveAt 8 [0]) with pending := some 1, ovr := true, turns := [.engine] }
    s.Inv ∧ s.eng.counter = some 8 ∧ ∃ t, step s = .next t ∧ t.eng ≠ s.eng ∧ s.ovr = true ∧ t.ovr = false :=
  ⟨rfl, rfl, _, rfl, by decide⟩

end Sys2Proof.Tests
end

section
/-! PROOFS. The scope of the model (00_scope.md): no step writes the parameters or adds to the schedule and to the host's
list (R5, R7, R236), and the pending cache fits its capacity (R7, R27). -/

namespace Sys2Proof.Machine

/-! ## The host's account, the parameters and the schedule -/

/-- The schedule after the engine's turn. -/
theorem EngineNext.eq_tail {s : State} {ts : List Turn} (h : EngineNext s ts) : ts = s.turns.tail := by
  rcases h with h | ⟨h, rfl, _⟩ <;> rw [h] <;> rfl

/-- No command writes the parameters, the host's list or the schedule. -/
theorem exec_frame {i : Instr} {s t : State} (h : exec i s = .next t) :
    t.config = s.config ∧ t.host = s.host ∧ t.turns = s.turns := by
  rcases exec_next h with ⟨c, rfl⟩ | ⟨_, c, e, rfl⟩ | ⟨_, rfl⟩ | ⟨_, r, rfl⟩ <;> simp

/-- Nor does the commit of any word, legal or not (R190, R193). -/
theorem commit_frame {w : Word} {s t : State} (h : commit w s = .next t) :
    t.config = s.config ∧ t.host = s.host ∧ t.turns = s.turns := by
  cases hd : decode w with
  | ok i => exact exec_frame (commit_ok hd s ▸ h)
  | error e =>
    rw [commit_error hd] at h
    cases h
    simp

/-- A host access writes neither the parameters nor the schedule, and either uses its operation up or, a WAIT that read
BUSY, leaves it to be done again (R78). -/
theorem hostAccess_frame {op : HostOp} {rest : List HostOp} {s t : State} (h : hostAccess op rest s = .next t) :
    t.config = s.config ∧ t.turns = s.turns ∧ (t.host = rest ∨ t.host = op :: rest) := by
  rcases hostAccess_next h with ⟨r, a, v, hr, rfl⟩ | ⟨r, v, rfl⟩
  · simpa using hr
  · obtain ⟨-, -, hc, hh, -, ht⟩ := writeReg_frame r v (s.withHost rest)
    exact ⟨hc, ht, .inl hh⟩

/-- Settles O58: each of the turns of `step_next` keeps the parameters and takes its own turn off the schedule; only a host
access touches the host's list. -/
theorem stepKeepsTheParameters : Obligations.StepKeepsTheParameters := by
  intro s t h
  rcases step_next h with ⟨ts, hts, rfl⟩ | ⟨ts, w, hn, _, hc⟩ | rfl | ⟨ts, op, rest, _, rfl, ho, ha⟩
  · simp [hts]
  · obtain ⟨hcfg, hh, ht⟩ := commit_frame hc
    exact ⟨hcfg, ht.trans hn.eq_tail, .inl hh⟩
  · simp
  · obtain ⟨hcfg, ht, hh⟩ := hostAccess_frame ha
    exact ⟨hcfg, ht, by rw [ho]; exact hh.symm⟩

/-! ## The capacity of the cache -/

/-- A byte-aligned count keeps no full block in the cache (R27). -/
theorem expectedLen_aligned_le (t : Nat) (h : t % 8 = 0) : expectedLen t ≤ 63 := by
  rw [expectedLen_aligned t h]
  omega

/-- A legal chunk is at most DIN_BYTES long (R73). -/
theorem chunk_length_le {len : BitVec 7} (s : State) (h : lenLegal len = true) : (chunk len s).length ≤ 64 := by
  have hl : len.toNat ≤ 64 := of_decide_eq_true h
  rwa [chunk_length len s hl]

/-- A cache of the length R27 requires always pads, to one block or to two (R151, R154). -/
theorem padCache_some (clear : Bool) (t : DWord) (c : ByteSeq) (h : c.length = expectedLen t.toNat) :
    ∃ p, padCache clear t c = some p ∧ p.length = if t.toNat % 512 < 448 then 64 else 128 := by
  obtain ⟨c', hc', hl⟩ := addPaddingBit_some clear t.toNat c h
  have hsum : c'.length + zeroFill (t.toNat % 512) + 8 = if t.toNat % 512 < 448 then 64 else 128 := by
    rw [hl, zeroFill]
    split <;> omega
  refine ⟨_, padCache_of_bit hc' ?_, by simpa [Nat.add_assoc] using hsum⟩
  rw [hsum]
  split
  · exact .inl rfl
  · exact .inr rfl

/-- Settles O42: the bounds come from R27's length, the chunk's and the padded cache's; 127 is reached with 63 cached bytes
(T = 504) and 128 with 64 (T = 511). -/
theorem cacheFitsItsCapacity : Obligations.CacheFitsItsCapacity := by
  refine ⟨rfl, fun t c hc => ⟨hc ▸ expectedLen_le _, fun s len ht hlen => ?_, fun clear p hp => ?_⟩,
    ⟨504, zeros 63, by decide, by decide, fun s => ?_⟩, ⟨511, zeros 64, by decide, fun clear => ?_⟩⟩
  · have hcache := expectedLen_aligned_le t.toNat ht
    have hchunk := chunk_length_le s hlen
    rw [List.length_append]
    omega
  · show p.length ≤ 128
    rcases padCache_length hp with h | h <;> omega
  · rw [List.length_append, zeros_length, chunk_length 64 s (by decide)]
    rfl
  · exact padCache_some clear 511 (zeros 64) (by decide)

end Sys2Proof.Machine
end

section
/-! PROOFS. The decoder and the encoder (30_encoding.md R73 to R77): the two ways round, and the command a placed word runs
(44_control.md R190). -/

namespace Sys2Proof.Machine

/-- Only commands with the legal field values of R73 are decoded. -/
theorem decode_ok_wellFormed {w : Word} {i : Instr} (h : decode w = .ok i) : i.wellFormed = true := by
  obtain ⟨-, ⟨-, -, rfl⟩ | ⟨-, -, rfl⟩ | ⟨-, -, rfl⟩ | ⟨-, -, rfl⟩ | ⟨-, -, hl, hb, rfl⟩⟩ := decode_ok_cases w h
  · rfl
  · rfl
  · rfl
  · rfl
  · simp [Instr.wellFormed, hl, hb]

/-- The decoder reads back every well-formed command from its word (R70, R76, R77). -/
theorem decode_encode {i : Instr} (h : i.wellFormed = true) : decode (encode i) = .ok i := by
  cases i with
  | init => decide
  | update len blv bitlen =>
    obtain ⟨hlen, hbitlen⟩ := Bool.and_eq_true_iff.mp h
    have hd := decode_update_of_fields (encodeUpdate len blv bitlen) (rsv0Field_encodeUpdate ..)
      (opField_encodeUpdate ..) (rsv1Field_encodeUpdate ..)
    rw [lenField_encodeUpdate, blvField_encodeUpdate, bitlenField_encodeUpdate] at hd
    exact hd hlen hbitlen
  | digest => decide
  | exportCk => decide
  | importCk => decide

/-- The number of a word in the opcode table is the word. -/
theorem ofNat_toNat_table (w : Word) : BitVec.ofNat 32 (w.toNat % 2 ^ 32) = w := by
  rw [Nat.mod_eq_of_lt w.isLt, BitVec.ofNat_toNat, BitVec.setWidth_eq]

/-- Settles O8: the placed word is pending with the engine's turn first, and decodes to the command. -/
theorem placedCommandRunsNext : Obligations.PlacedCommandRunsNext := by
  intro s i hi
  have hd := decode_encode hi
  constructor
  · rw [decodeTableWord, if_pos le_rfl, ofNat_toNat_table, hd]
    rfl
  · rw [State.withFetchWord, ofNat_toNat_table, step_engine (.inl rfl) rfl, commit_ok hd]
    rfl

end Sys2Proof.Machine
end

section
/-! PROOFS. What every step keeps (10_state.md): the invariant of R27, the bit counter of R23, the frozen digest of R26, and
when the engine, the code and OVR can change (R32, R207, R235). -/

namespace Sys2Proof.Machine

/-! ## The fresh engine -/

theorem fresh_inv : Engine.fresh.Inv := rfl

/-- STATUS after reset (R44). -/
theorem statusWord_reset : statusWord State.reset = 0 := by decide

theorem fresh_holds_nothing : Engine.fresh.Holds [] 0 := ⟨rfl, rfl, rfl, 0, rfl, rfl, rfl⟩

/-! ## Every command keeps the invariant (R27) -/

/-- The counter after an append that does not overflow (R133). -/
theorem counter_add_toNat {k : DWord} {n : Nat} (h : k.toNat + n < 2 ^ 64) :
    (k + BitVec.ofNat 64 n).toNat = k.toNat + n := by
  rw [BitVec.toNat_add, BitVec.toNat_ofNat, Nat.add_mod_mod, Nat.mod_eq_of_lt h]

/-- What the drain leaves of a cache that was as long as a byte-aligned count `t` requires, after `m` bytes that hold `n`
bits: the length the new count requires (R27, R134). -/
theorem drained_length {t m n : Nat} (ht : t % 8 = 0) (hn : n ≤ 8 * m) (hm : 8 * m < n + 8) :
    expectedLen t + m - 64 * drainCount (t + n) (expectedLen t + m) = expectedLen (t + n) := by
  rw [expectedLen_aligned t ht, drainCount]
  by_cases h : (t + n) % 8 = 0
  · rw [if_pos h, expectedLen_aligned _ h]
    omega
  · rw [if_neg h, expectedLen_partial _ h]
    omega

/-- Appending a chunk with the bits it holds to a byte-aligned engine (R133, R134). -/
theorem absorb_inv {v : Vector Word 8} {k : DWord} {c bytes : ByteSeq} {n : Nat} (hc : c.length = expectedLen k.toNat)
    (hk : k.toNat % 8 = 0) (hn : n ≤ 8 * bytes.length) (hm : 8 * bytes.length < n + 8) (hlt : k.toNat + n < 2 ^ 64) :
    (absorb v k c bytes n).Inv := by
  rw [absorb_eq, Engine.Inv, List.length_drop, List.length_append, counter_add_toNat hlt, hc]
  exact drained_length hk hn hm

/-- The engine a record describes is safe: IMPORT checks the length (R175, R178). -/
theorem importEngine_inv {ck : Checkpoint} {e : Engine} (h : importEngine ck = some e) : e.Inv := by
  rcases importEngine_some h with ⟨_, rfl⟩ | ⟨_, hl, rfl⟩
  · trivial
  · have := expectedLen_le (totalBits ck).toNat
    rw [Engine.Inv, importedCache, List.length_take, windowBytes_length, hl]
    omega

/-- No well-formed command leads out of the safe states. -/
theorem exec_keeps_inv {i : Instr} {s t : State} (hs : s.Inv) (hi : i.wellFormed = true) (h : exec i s = .next t) :
    t.Inv := by
  cases i with
  | init => cases h; exact fresh_inv
  | update len blv bitlen =>
    rcases execUpdate_next h with ⟨_, rfl⟩ | ⟨_, _, _, rfl⟩ | ⟨v, k, c, he, ⟨_, rfl⟩ | ⟨_, _, rfl⟩ | ⟨_, _, rfl⟩ |
      ⟨n, hk, _, hb, hlt, rfl⟩⟩
    · exact hs
    · exact hs
    · exact hs
    · exact hs
    · exact hs
    · have hc : c.length = expectedLen k.toNat := by rwa [State.Inv, he] at hs
      have hlen : len.toNat ≤ 64 := of_decide_eq_true (Bool.and_eq_true_iff.mp hi).1
      obtain ⟨hn, hm⟩ := updateBits_bounds hb
      rw [← chunk_length len s hlen] at hn hm
      exact absorb_inv hc hk hn hm hlt
  | digest =>
    rcases execDigest_next h with ⟨_, rfl⟩ | ⟨_, _, _, rfl⟩ | ⟨v, k, c, he, ⟨hp, rfl⟩ | ⟨_, _, rfl⟩⟩
    · exact hs
    · exact hs
    · rw [State.Inv, he] at hs
      obtain ⟨p, hsome, -⟩ := padCache_some s.config.clearTrailingBits k c hs
      rw [hp] at hsome
      cases hsome
    · trivial
  | exportCk =>
    rcases execExport_next h with ⟨_, rfl⟩ | ⟨_, _, rfl⟩
    · exact hs
    · exact hs
  | importCk =>
    rcases execImport_next h with ⟨_, rfl⟩ | ⟨e, he, rfl⟩
    · exact hs
    · exact importEngine_inv he

/-! ## What a commit and a host access leave unchanged -/

/-- The commit of a word is that of a command, or of an illegal word (R190, R193). -/
theorem commit_next {w : Word} {s t : State} (h : commit w s = .next t) :
    (∃ i, decode w = .ok i ∧ exec i s = .next t) ∨ t = commitCode .invalidCommand s := by
  cases hd : decode w with
  | ok i => exact .inl ⟨i, rfl, commit_ok hd s ▸ h⟩
  | error e =>
    rw [commit_error hd] at h
    cases h
    exact .inr rfl

/-- BUSY is 0 after every command (R190). -/
theorem exec_pending {i : Instr} {s t : State} (h : exec i s = .next t) : t.pending = none := by
  rcases exec_next h with ⟨c, rfl⟩ | ⟨_, c, e, rfl⟩ | ⟨_, rfl⟩ | ⟨_, r, rfl⟩ <;> rfl

/-- BUSY is 0 after every commit (R190, R193). -/
theorem commit_pending {w : Word} {s t : State} (h : commit w s = .next t) : t.pending = none := by
  rcases commit_next h with ⟨i, _, hi⟩ | rfl
  · exact exec_pending hi
  · rfl

/-- Only INIT writes OVR (R42, R191). -/
theorem exec_ovr {i : Instr} {s t : State} (h : exec i s = .next t) (hi : i ≠ .init) : t.ovr = s.ovr := by
  rcases exec_next h with ⟨c, rfl⟩ | ⟨_, c, e, rfl⟩ | ⟨rfl, rfl⟩ | ⟨_, r, rfl⟩
  · rfl
  · rfl
  · contradiction
  · rfl

/-- EXPORT writes no engine field (R173). -/
theorem exec_exportCk_eng {s t : State} (h : exec .exportCk s = .next t) : t.eng = s.eng := by
  rcases execExport_next h with ⟨_, rfl⟩ | ⟨_, _, rfl⟩ <;> rfl

/-- A host access writes neither the engine nor the code, and never lowers OVR (R41, R63, R207). -/
theorem hostAccess_engine {op : HostOp} {rest : List HostOp} {s t : State} (h : hostAccess op rest s = .next t) :
    t.eng = s.eng ∧ t.err = s.err ∧ (s.ovr = true → t.ovr = true) := by
  rcases hostAccess_next h with ⟨r, a, v, _, rfl⟩ | ⟨r, v, rfl⟩
  · exact ⟨rfl, rfl, id⟩
  · obtain ⟨he, hc, -⟩ := writeReg_frame r v (s.withHost rest)
    exact ⟨he, hc, writeReg_ovr r v (s.withHost rest)⟩

/-! ## The step -/

/-- Settles O53: reset and INIT give the fresh engine, a commit runs a well-formed command, the other turns leave the engine
alone. -/
theorem stepKeepsTheInvariant : Obligations.StepKeepsTheInvariant := by
  intro s t hs h
  rcases step_next h with ⟨ts, _, rfl⟩ | ⟨ts, w, _, _, hc⟩ | rfl | ⟨ts, op, rest, _, _, _, ha⟩
  · exact fresh_inv
  · have hs' : (s.withTurns ts).Inv := hs
    rcases commit_next hc with ⟨i, hd, hi⟩ | rfl
    · exact exec_keeps_inv hs' (decode_ok_wellFormed hd) hi
    · exact hs'
  · exact hs
  · obtain ⟨he, -⟩ := hostAccess_engine ha
    rw [State.Inv, he]
    exact hs

/-- Settles O55: UPDATE is the only one of these commands that replaces the counter, and it adds to it. -/
theorem counterNeverDecreases : Obligations.CounterNeverDecreases := by
  intro i s t a b h hinit himport ha hb
  have same : t.eng.counter = s.eng.counter → a.toNat ≤ b.toNat ∧
      ((∀ len blv bitlen, i ≠ .update len blv bitlen) → a = b) := by
    intro hc
    obtain rfl : a = b := Option.some.inj (by rw [← ha, ← hb, hc])
    exact ⟨le_rfl, fun _ => rfl⟩
  cases i with
  | init => contradiction
  | update len blv bitlen =>
    rcases execUpdate_next h with ⟨_, rfl⟩ | ⟨_, _, _, rfl⟩ | ⟨v, k, c, he, ⟨_, rfl⟩ | ⟨_, _, rfl⟩ | ⟨_, _, rfl⟩ |
      ⟨n, _, _, _, hlt, rfl⟩⟩
    · exact same rfl
    · exact same rfl
    · exact same rfl
    · exact same rfl
    · exact same rfl
    · rw [he] at ha
      cases ha
      cases hb
      exact ⟨by rw [counter_add_toNat hlt]; omega, fun hu => absurd rfl (hu _ _ _)⟩
  | digest =>
    rcases execDigest_next h with ⟨_, rfl⟩ | ⟨_, _, _, rfl⟩ | ⟨v, k, c, he, ⟨_, rfl⟩ | ⟨_, _, rfl⟩⟩
    · exact same rfl
    · exact same rfl
    · cases hb
    · exact same (by rw [he]; rfl)
  | exportCk => exact same (by rw [exec_exportCk_eng h])
  | importCk => contradiction

/-- In FINAL mode only INIT and IMPORT replace the engine (R26). -/
theorem exec_final_eng {i : Instr} {s t : State} {d : Vector Word 8} {n : DWord} (hs : s.eng = .final d n)
    (h : exec i s = .next t) (hne : t.eng ≠ s.eng) : i = .init ∨ i = .importCk := by
  cases i with
  | init => exact .inl rfl
  | update len blv bitlen =>
    rw [exec, execUpdate_final hs] at h
    cases h
    exact absurd rfl hne
  | digest =>
    rw [exec, execDigest_final hs] at h
    cases h
    exact absurd rfl hne
  | exportCk => exact absurd (exec_exportCk_eng h) hne
  | importCk => exact .inr rfl

/-- Settles O56: neither an idle turn nor a host access replaces an engine, and in FINAL mode only two commands do. -/
theorem finalDigestIsFrozen : Obligations.FinalDigestIsFrozen := by
  intro s t d n hs h hne
  rcases step_next h with ⟨ts, hts, rfl⟩ | ⟨ts, w, _, hp, hc⟩ | rfl | ⟨ts, op, rest, _, _, _, ha⟩
  · exact .inl (by rw [hts]; rfl)
  · refine .inr ⟨w, hp, commit_pending hc, ?_⟩
    rcases commit_next hc with ⟨i, hd, hi⟩ | rfl
    · have hs' : (s.withTurns ts).eng = .final d n := hs
      rcases exec_final_eng hs' hi hne with rfl | rfl
      · exact .inl hd
      · exact .inr hd
    · exact absurd rfl hne
  · exact absurd rfl hne
  · exact absurd (hostAccess_engine ha).1 hne

/-- Settles O57: the turns that are neither a reset nor a commit leave the engine and the code and keep OVR; of the
commands only INIT lowers it. -/
theorem engineChangesOnlyAtCommitOrReset : Obligations.EngineChangesOnlyAtCommitOrReset := by
  intro s t h
  rcases step_next h with ⟨ts, hts, rfl⟩ | ⟨ts, w, hn, hp, hc⟩ | rfl | ⟨ts, op, rest, _, _, _, ha⟩
  · have hr : s.turns.head? = some .reset := by rw [hts]; rfl
    exact ⟨fun _ => ⟨rfl, .inl hr⟩, fun _ _ => .inl hr⟩
  · refine ⟨fun _ => ⟨commit_pending hc, .inr ⟨w, hp, ts, hn⟩⟩, fun h1 h0 => .inr ⟨w, hp, ?_, commit_pending hc⟩⟩
    rcases commit_next hc with ⟨i, hd, hi⟩ | rfl
    · by_cases hinit : i = .init
      · rw [hd, hinit]
      · exact nomatch h1.symm.trans ((exec_ovr hi hinit).symm.trans h0)
    · exact nomatch h1.symm.trans h0
  · exact ⟨fun hne => by simp at hne, fun h1 h0 => nomatch h1.symm.trans h0⟩
  · obtain ⟨he, hr, ho⟩ := hostAccess_engine ha
    refine ⟨fun hne => ?_, fun h1 h0 => nomatch (ho h1).symm.trans h0⟩
    exact (hne.elim (absurd he) (absurd hr))

/-- Settles O54: R27's length is at most 63 for a byte-aligned count, so 64 needs a partial one. -/
theorem resetIsSafe : Obligations.ResetIsSafe := by
  refine ⟨fresh_inv, fun s h t c hs he => ?_⟩
  have hc : c.length = expectedLen t.toNat := by rwa [State.Inv, he] at hs
  refine ⟨hc ▸ expectedLen_le _, fun h64 => ?_⟩
  have hpartial : t.toNat % 8 ≠ 0 := fun h8 => by
    have := expectedLen_aligned_le t.toNat h8
    omega
  exact ⟨hpartial, by omega⟩

/-- Settles O38: both are the fresh engine. -/
theorem freshEngineHoldsNothing : Obligations.FreshEngineHoldsNothing := by
  refine ⟨fresh_holds_nothing, fun s t h => ?_⟩
  cases h
  exact fresh_holds_nothing

/-- Settles O28: INIT's one answer (R191), whose STATUS and RESULT are those of a LIVE engine at T = 0. -/
theorem initGivesAFreshEngine : Obligations.InitGivesAFreshEngine :=
  fun s => ⟨_, execInit_eq s, rfl, rfl, (statusWord_congr _ State.reset rfl rfl rfl rfl).trans statusWord_reset,
    fun _ => rfl⟩

end Sys2Proof.Machine
end

section
/-! PROOFS. The register window as the host sees it (10_state.md R30 to R44, 44_control.md R194, R195): the map, the fields of
STATUS, reads and writes, and a host's turn while a command is pending. -/

namespace Sys2Proof.Machine

/-! ## The map -/

/-- Every aligned offset that R40 does not reserve is the offset of a register (R30). -/
theorem exists_regOffset {off : Nat} (h1 : off < 0x200) (h2 : off % 4 = 0) (h : ¬ReservedOffset off) :
    ∃ r, r ≠ .reserved ∧ off = regOffset r := by
  unfold ReservedOffset at h
  have ranges : off = 0x000 ∨ off = 0x004 ∨ (0x040 ≤ off ∧ off < 0x080) ∨ (0x080 ≤ off ∧ off < 0x0A0) ∨
      off = 0x100 ∨ off = 0x104 ∨ off = 0x108 ∨ off = 0x10C ∨ (0x120 ≤ off ∧ off < 0x140) ∨
      (0x140 ≤ off ∧ off < 0x180) := by omega
  rcases ranges with h | h | h | h | h | h | h | h | h | h
  · exact ⟨.cmd, nofun, h⟩
  · exact ⟨.status, nofun, h⟩
  · exact ⟨.din ⟨(off - 0x040) / 4, by omega⟩, nofun, by simp only [regOffset]; omega⟩
  · exact ⟨.result ⟨(off - 0x080) / 4, by omega⟩, nofun, by simp only [regOffset]; omega⟩
  · exact ⟨.ckShape, nofun, h⟩
  · exact ⟨.ckCacheLen, nofun, h⟩
  · exact ⟨.ckTotalLo, nofun, h⟩
  · exact ⟨.ckTotalHi, nofun, h⟩
  · exact ⟨.ckH ⟨(off - 0x120) / 4, by omega⟩, nofun, by simp only [regOffset]; omega⟩
  · exact ⟨.ckCache ⟨(off - 0x140) / 4, by omega⟩, nofun, by simp only [regOffset]; omega⟩

/-- No register but `reserved` itself stands at a reserved offset (R40). -/
theorem not_reservedOffset_regOffset {r : Reg} (hr : r ≠ .reserved) : ¬ReservedOffset (regOffset r) := by
  unfold ReservedOffset
  cases r with
  | reserved => contradiction
  | _ => simp only [regOffset]; omega

/-- What R30 lists nowhere is R40's reserved offsets, and nothing else is. -/
theorem regAt_reserved_iff {off : Nat} (h1 : off < 0x200) (h2 : off % 4 = 0) :
    regAt off = .reserved ↔ ReservedOffset off := by
  constructor
  · intro h
    by_contra hres
    obtain ⟨r, hr, rfl⟩ := exists_regOffset h1 h2 hres
    exact hr (regAt_regOffset r ▸ h)
  · intro h
    by_contra hr
    exact not_reservedOffset_regOffset hr (((regOffset_regAt off h2).resolve_left hr).symm ▸ h)

/-- Settles O17: the offsets are the model's by definition, and the map inverts them. -/
theorem registerMap : Obligations.RegisterMap :=
  ⟨fun r => ⟨regAt_regOffset r, regOffset_lt r⟩, rfl, rfl, rfl, rfl, rfl, rfl, fun _ => ⟨rfl, rfl⟩, fun _ => ⟨rfl, rfl⟩,
    fun _ => regAt_reserved_iff⟩

/-- The registers with storage, and CMD: those whose writes a pending command discards (R41). -/
def writable : Reg → Bool
  | .status => false
  | .result _ => false
  | .reserved => false
  | _ => true

/-- The offsets of the writable registers, as ranges (R30). -/
theorem regAt_writable {off : Nat} (h2 : off % 4 = 0)
    (h : off = 0x000 ∨ (0x040 ≤ off ∧ off < 0x080) ∨ (0x100 ≤ off ∧ off < 0x110) ∨ (0x120 ≤ off ∧ off < 0x180)) :
    writable (regAt off) = true := by
  have hres : regAt off ≠ .reserved := by
    rw [Ne, regAt_reserved_iff (by omega) h2]
    unfold ReservedOffset
    omega
  have hoff := (regOffset_regAt off h2).resolve_left hres
  cases hreg : regAt off with
  | status => simp only [hreg, regOffset] at hoff; omega
  | result i => simp only [hreg, regOffset] at hoff; omega
  | reserved => contradiction
  | _ => rfl

/-- The offsets of the registers that ignore writes, as ranges (R30, R34, R40). -/
theorem regAt_not_writable {off : Nat} (h1 : off < 0x200) (h2 : off % 4 = 0)
    (h : off = 0x004 ∨ (0x080 ≤ off ∧ off < 0x0A0) ∨ ReservedOffset off) : writable (regAt off) = false := by
  by_cases hres : regAt off = .reserved
  · rw [hres]
    rfl
  have hoff := (regOffset_regAt off h2).resolve_left hres
  have hrange : off = 0x004 ∨ (0x080 ≤ off ∧ off < 0x0A0) := by
    rw [regAt_reserved_iff h1 h2] at hres
    tauto
  cases hreg : regAt off with
  | status => rfl
  | result i => rfl
  | reserved => rfl
  | _ => simp only [hreg, regOffset] at hoff; omega

/-! ## Accesses -/

/-- What an aligned 32-bit read in the window does (R194). -/
theorem step_read {s : State} {ts : List Turn} {rest : List HostOp} {off : Nat} (hn : HostNext s ts) (h1 : off < 0x200)
    (h2 : off % 4 = 0) (hh : s.host = .read (s.config.shaBase + off) .w32 :: rest) :
    step s = .next { s with
      turns := ts, host := rest, reads := ⟨s.config.shaBase + off, readReg (regAt off) s⟩ :: s.reads } := by
  rw [step_host_access hn hh, hostAccess, State.withTurns_config, selectReg_window _ _ h1 h2]
  rfl

/-- What an aligned 32-bit write in the window does (R195). -/
theorem step_write {s : State} {ts : List Turn} {rest : List HostOp} {off : Nat} {v : Word} (hn : HostNext s ts)
    (h1 : off < 0x200) (h2 : off % 4 = 0) (hh : s.host = .write (s.config.shaBase + off) .w32 v :: rest) :
    step s = .next (writeReg (regAt off) v ((s.withTurns ts).withHost rest)) := by
  rw [step_host_access hn hh, hostAccess, State.withTurns_config, selectReg_window _ _ h1 h2]

/-- A write to a register without storage does nothing (R40, R195). -/
theorem writeReg_not_writable {r : Reg} (hr : writable r = false) (v : Word) (s : State) : writeReg r v s = s := by
  cases r with
  | status => rfl
  | result i => rfl
  | reserved => rfl
  | _ => cases hr

/-- A write to any other register while a command is pending is discarded and sets OVR (R41). -/
theorem writeReg_busy_writable {r : Reg} (hr : writable r = true) (v : Word) {s : State} (hp : s.pending ≠ none) :
    writeReg r v s = s.withOvr true := by
  cases r with
  | status => cases hr
  | result i => cases hr
  | reserved => cases hr
  | _ => exact storeOrOverrun_busy _ _ hp

/-- Settles O13: the value is the register's that the offset selects, clause by clause of R30. -/
theorem hostReadReturnsTheRegister : Obligations.HostReadReturnsTheRegister := by
  intro s ts rest off hn h1 h2 hh
  have at_reg : ∀ r, off = regOffset r → readReg (regAt off) s = readReg r s := by
    rintro r rfl
    rw [regAt_regOffset]
  refine ⟨_, step_read hn h1 h2 hh, at_reg .cmd, at_reg .status, fun i => at_reg (.din i), fun i hi => ?_,
    at_reg .ckShape, at_reg .ckCacheLen, at_reg .ckTotalLo, at_reg .ckTotalHi, fun i => at_reg (.ckH i),
    fun i => at_reg (.ckCache i), fun hr => ?_⟩
  · rw [at_reg (.result i) hi, readReg]
    cases s.eng <;> simp [resultWord]
  · rw [(regAt_reserved_iff h1 h2).mpr hr]
    rfl

/-- Settles O14: the offset selects the register; an idle engine's stores it, a busy one's is discarded, and the rest
ignore the write. -/
theorem hostWriteStoresOrIsDiscarded : Obligations.HostWriteStoresOrIsDiscarded := by
  intro s ts rest off v hn h1 h2 hh
  have hstep := step_write hn h1 h2 hh
  refine ⟨fun hp => ?_, fun hp hoff => ?_, fun hoff => ?_⟩
  · have store : ∀ r t, off = regOffset r → writeReg r v ((s.withTurns ts).withHost rest) =
        storeOrOverrun ((s.withTurns ts).withHost rest) t → step s = .next t := by
      rintro r t rfl hw
      rw [hstep, regAt_regOffset, hw, storeOrOverrun_idle ((s.withTurns ts).withHost rest) t hp]
    exact ⟨fun h => store .cmd _ h rfl, fun i h => store (.din i) _ h rfl, fun h => store .ckShape _ h rfl,
      fun h => store .ckCacheLen _ h rfl, fun h => store .ckTotalLo _ h rfl, fun h => store .ckTotalHi _ h rfl,
      fun i h => store (.ckH i) _ h rfl, fun i h => store (.ckCache i) _ h rfl⟩
  · rw [hstep, writeReg_busy_writable (s := (s.withTurns ts).withHost rest) (regAt_writable h2 hoff) v hp]
    rfl
  · rw [hstep, writeReg_not_writable (regAt_not_writable h1 h2 hoff)]
    rfl

/-- A host access while a command is pending changes at most OVR, which it can only set, beside the host's account (R41). -/
theorem hostAccess_busy {op : HostOp} {rest : List HostOp} {s t : State} (hp : s.pending ≠ none)
    (h : hostAccess op rest s = .next t) :
    ∃ ho rs o, (s.ovr = true → o = true) ∧ t = { s with host := ho, reads := rs, ovr := o } := by
  rcases hostAccess_next h with ⟨r, a, v, _, rfl⟩ | ⟨r, v, rfl⟩
  · exact ⟨r, _, s.ovr, id, rfl⟩
  · rcases writeReg_busy r v (s.withHost rest) hp with e | e
    · exact ⟨rest, s.reads, s.ovr, id, e⟩
    · exact ⟨rest, s.reads, true, fun _ => rfl, e⟩

/-- Settles O10: a host turn is idle or one access, and R41 gives all an access can do. -/
theorem hostCannotTouchAPendingCommand : Obligations.HostCannotTouchAPendingCommand := by
  intro s t ts hp hts h
  rw [step_host (.inl hts), hostTurn] at h
  split at h
  · cases h
    exact ⟨rfl, rfl, rfl, rfl, rfl, rfl, id⟩
  · obtain ⟨ho, rs, o, hovr, rfl⟩ := hostAccess_busy (s := s.withTurns ts) hp h
    exact ⟨rfl, rfl, rfl, rfl, rfl, rfl, hovr⟩

/-! ## STATUS -/

theorem statusWord_state (s : State) : (statusWord s).extractLsb' 1 2 = stateField s.eng := by
  have h := statusWord_toNat s
  have := s.pending.isSome.toNat_lt
  rw [← BitVec.toNat_inj, BitVec.extractLsb'_toNat, Nat.shiftRight_eq_div_pow]
  omega

theorem statusWord_ovr (s : State) : (statusWord s).getLsbD 3 = s.ovr := by
  have h := statusWord_toNat s
  have := s.pending.isSome.toNat_lt
  have := (stateField s.eng).isLt
  rw [BitVec.getLsbD, Nat.testBit_eq_decide_div_mod_eq]
  cases ho : s.ovr <;> simp [ho] at h ⊢ <;> omega

theorem statusWord_err (s : State) : (statusWord s).extractLsb' 4 4 = errValue s.err := by
  have h := statusWord_toNat s
  have := s.pending.isSome.toNat_lt
  have := s.ovr.toNat_lt
  have := (stateField s.eng).isLt
  rw [← BitVec.toNat_inj, BitVec.extractLsb'_toNat, Nat.shiftRight_eq_div_pow]
  omega

theorem statusWord_high (s : State) : (statusWord s).extractLsb' 8 24 = 0#24 := by
  have h := statusWord_toNat s
  have := s.pending.isSome.toNat_lt
  have := s.ovr.toNat_lt
  have := (stateField s.eng).isLt
  have := (errValue s.err).isLt
  rw [← BitVec.toNat_inj, BitVec.extractLsb'_toNat, Nat.shiftRight_eq_div_pow, BitVec.toNat_zero]
  omega

/-- STATE of a LIVE engine is its partial flag (R25, R32). -/
theorem stateField_live (h : Vector Word 8) (t : DWord) (c : ByteSeq) :
    stateField (.live h t c) = if t.toNat % 8 = 0 then 0#2 else 1#2 := by
  by_cases ht : t.toNat % 8 = 0 <;> simp [stateField, isPartial, ht]

/-- Settles O15: each field of the word is the function of the state R32 composes it of. -/
theorem statusReadsItsFields : Obligations.StatusReadsItsFields := by
  intro s
  have code : ∀ c, s.err = c → (readReg .status s).extractLsb' 4 4 = errValue c := by
    rintro c rfl
    exact statusWord_err s
  have state : ∀ e, s.eng = e → (readReg .status s).extractLsb' 1 2 = stateField e := by
    rintro e rfl
    exact statusWord_state s
  exact ⟨statusWord_busy s, fun h t c he => (state _ he).trans (stateField_live h t c), fun d t he => state _ he,
    state .fatal, statusWord_ovr s, code .ok, code .invalidBitLength, code .lateUpdateAfterPartialByte,
    code .corruptPaddingState, code .updateAfterDigest, code .invalidCommand, code .invalidCheckpoint,
    statusWord_high s⟩

/-- Settles O19: a poll reads STATUS, and its BUSY bit says whether a command is pending. -/
theorem waitPollsWhileBusy : Obligations.WaitPollsWhileBusy := by
  intro s ts rest hn hh
  have hstep := step_host_access hn hh
  have hbusy : (readReg .status (s.withTurns ts)).getLsbD 0 = s.pending.isSome := statusWord_busy (s.withTurns ts)
  simp only [hostAccess, hbusy] at hstep
  refine ⟨fun hp => ?_, fun hp => ?_⟩
  · rw [hp] at hstep
    exact ⟨by rw [statusWord_busy, hp]; rfl, hstep⟩
  · rw [Option.isSome_iff_ne_none.mpr hp] at hstep
    exact ⟨by rw [statusWord_busy, Option.isSome_iff_ne_none.mpr hp], hstep⟩

/-! ## Reset as the host reads it -/

/-- After the platform's reset every register reads 0 (R44, R231). -/
theorem readReg_platformReset (r : Reg) (s : State) : readReg r (platformReset s) = 0 := by
  cases r with
  | status => exact (statusWord_congr _ State.reset rfl rfl rfl rfl).trans statusWord_reset
  | din i => exact Vector.getElem_replicate i.isLt
  | ckH i => exact Vector.getElem_replicate i.isLt
  | ckCache i => exact Vector.getElem_replicate i.isLt
  | _ => rfl

/-- Settles O11: the fields are given, and the reset state is its own reset. -/
theorem resetLeavesTheseValues : Obligations.ResetLeavesTheseValues :=
  ⟨rfl, rfl, rfl, rfl, fun i => readReg_platformReset (.din i) .reset, rfl, rfl, rfl, rfl,
    fun i => readReg_platformReset (.ckH i) .reset, fun i => readReg_platformReset (.ckCache i) .reset,
    fun r => readReg_platformReset r .reset⟩

/-- Settles O12: the reset turn gives the platform's reset of the state, whatever is pending. -/
theorem platformResetAbandonsThePendingCommand : Obligations.PlatformResetAbandonsThePendingCommand := by
  intro s ts hts
  have zero := fun r => readReg_platformReset r (s.withTurns ts)
  exact ⟨_, step_reset hts, rfl, rfl, rfl, rfl, fun i => zero (.din i), rfl, rfl, rfl, rfl, fun i => zero (.ckH i),
    fun i => zero (.ckCache i), zero, rfl, rfl, rfl, rfl⟩

/-! ## Read after write -/

/-- The low bits of a word, kept by a narrower register (R35, R36). -/
theorem setWidth_extract_low (v : Word) (n : Nat) :
    (v.extractLsb' 0 n).setWidth 32 = v &&& BitVec.ofNat 32 (2 ^ n - 1) := by
  apply BitVec.eq_of_getLsbD_eq
  intro i hi
  simp only [BitVec.getLsbD_setWidth, BitVec.getLsbD_extractLsb', BitVec.getLsbD_and, BitVec.getLsbD_ofNat,
    Nat.testBit_two_pow_sub_one, hi, decide_true, Bool.true_and, Nat.zero_add, Bool.and_comm]

/-- A register with storage reads back what an idle engine lets be written, within its bits (R33, R35 to R39). -/
theorem readReg_writeReg_same {r : Reg} (v : Word) {s : State} (hp : s.pending = none) (hw : writable r = true)
    (hr : r ≠ .cmd) : readReg r (writeReg r v s) =
      if r = .ckShape then v &&& 0x1 else if r = .ckCacheLen then v &&& 0x7F else v := by
  cases r with
  | cmd => contradiction
  | status => cases hw
  | result i => cases hw
  | reserved => cases hw
  | ckShape =>
    rw [writeReg, storeOrOverrun_idle _ _ hp]
    exact setWidth_extract_low v 1
  | ckCacheLen =>
    rw [writeReg, storeOrOverrun_idle _ _ hp]
    exact setWidth_extract_low v 7
  | din i => rw [writeReg, storeOrOverrun_idle _ _ hp]; exact Vector.getElem_set_self i.isLt
  | ckH i => rw [writeReg, storeOrOverrun_idle _ _ hp]; exact Vector.getElem_set_self i.isLt
  | ckCache i => rw [writeReg, storeOrOverrun_idle _ _ hp]; exact Vector.getElem_set_self i.isLt
  | ckTotalLo => rw [writeReg, storeOrOverrun_idle _ _ hp]; rfl
  | ckTotalHi => rw [writeReg, storeOrOverrun_idle _ _ hp]; rfl

/-- A read of another register than the one written (R33, R35 to R39). -/
theorem readReg_writeReg_other {r r' : Reg} (v : Word) {s : State} (hp : s.pending = none) (hr : r ≠ .cmd)
    (hne : r' ≠ r) : readReg r' (writeReg r v s) = readReg r' s := by
  have store : ∀ t, readReg r' t = readReg r' s → readReg r' (storeOrOverrun s t) = readReg r' s := fun t h => by
    rwa [storeOrOverrun_idle s t hp]
  cases r with
  | cmd => contradiction
  | status => rfl
  | result i => rfl
  | reserved => rfl
  | din i =>
    refine store _ ?_
    cases r' with
    | din j => exact Vector.getElem_set_ne i.isLt j.isLt fun h => hne (congrArg _ (Fin.ext h.symm))
    | _ => rfl
  | ckH i =>
    refine store _ ?_
    cases r' with
    | ckH j => exact Vector.getElem_set_ne i.isLt j.isLt fun h => hne (congrArg _ (Fin.ext h.symm))
    | _ => rfl
  | ckCache i =>
    refine store _ ?_
    cases r' with
    | ckCache j => exact Vector.getElem_set_ne i.isLt j.isLt fun h => hne (congrArg _ (Fin.ext h.symm))
    | _ => rfl
  | ckShape =>
    refine store _ ?_
    cases r' with
    | ckShape => contradiction
    | _ => rfl
  | ckCacheLen =>
    refine store _ ?_
    cases r' with
    | ckCacheLen => contradiction
    | _ => rfl
  | ckTotalLo =>
    refine store _ ?_
    cases r' with
    | ckTotalLo => contradiction
    | _ => rfl
  | ckTotalHi =>
    refine store _ ?_
    cases r' with
    | ckTotalHi => contradiction
    | _ => rfl

/-- Settles O16: what is read back from the register itself, and from any other. -/
theorem readAfterWrite : Obligations.ReadAfterWrite := by
  intro s r v hp hcmd hstatus hreserved hresult
  have hw : writable r = true := by
    cases r with
    | status => contradiction
    | result i => exact absurd rfl (hresult i)
    | reserved => contradiction
    | _ => rfl
  exact ⟨readReg_writeReg_same v hp hw hcmd, fun r' hne => readReg_writeReg_other v hp hcmd hne⟩

end Sys2Proof.Machine
end

section
/-! PROOFS. Bytes and words (10_state.md R33, R39, 20_memory.md R53), and LOADDIN, which writes bytes as DIN words
(30_encoding.md R78). -/

namespace Sys2Proof.Machine

/-! ## The byte order of a window -/

/-- Byte `j` of a word, the first the most significant (R53). -/
theorem be32Bytes_getD (w : Word) {j : Nat} (h : j < 4) : (be32Bytes w).getD j 0 = w.extractLsb' (24 - 8 * j) 8 := by
  interval_cases j <;> rfl

/-- Byte `4i + j` of a window is byte `j` of word `i` (R33, R39). -/
theorem windowBytes_getD {n : Nat} (v : Vector Word n) {i j : Nat} (hi : i < n) (hj : j < 4) :
    (windowBytes v).getD (4 * i + j) 0 = v[i].extractLsb' (24 - 8 * j) 8 := by
  have hdrop : (windowBytes v).drop (4 * i) = be32Bytes v[i] ++ (v.toList.drop (i + 1)).flatMap be32Bytes := by
    rw [windowBytes, drop_flatMap_be32Bytes, List.drop_eq_getElem_cons (by simpa using hi), List.flatMap_cons]
    rfl
  rw [← be32Bytes_getD v[i] hj, List.getD_eq_getElem?_getD, ← List.getElem?_drop, hdrop,
    List.getElem?_append_left (by simpa using hj), List.getD_eq_getElem?_getD]

/-- The bytes of packed words are the bytes packed, then zeros (R39, R171). -/
theorem windowBytes_packBytes {p : ByteSeq} (h : p.length ≤ 64) :
    windowBytes (packBytes p) = p ++ zeros (64 - p.length) := by
  have hlist : ∀ q, (packBytes q).toList = (List.range 16).map fun i => be32 (q.drop (4 * i)) := by
    intro q
    rw [packBytes, Vector.toList_ofFn, List.ofFn_eq_map, ← List.map_coe_finRange_eq_range, List.map_map]
    rfl
  rw [← packBytes_append_zeros p (64 - p.length), windowBytes, hlist]
  exact flatMap_be32Bytes_be32 16 _ (by simp; omega)

/-- Settles O27: the bytes by position, and packing one way and the other. -/
theorem windowByteOrder : Obligations.WindowByteOrder :=
  ⟨fun v => ⟨windowBytes_length v, fun i _ hj => windowBytes_getD v i.isLt hj⟩, fun _ => windowBytes_packBytes,
    fun v => Vector.ext fun i hi => packBytes_windowBytes_getElem v i hi⟩

/-- The first bytes of a window are those of its first words. -/
theorem windowBytes_take_congr {v w : Vector Word 16} {n : Nat} (h : ∀ i : Fin 16, i.val < n → v[i] = w[i]) :
    (windowBytes v).take (4 * n) = (windowBytes w).take (4 * n) := by
  apply List.ext_getElem (by simp)
  intro k h1 _
  have hk : k < 4 * n ∧ k < 4 * 16 := by simpa using h1
  have hword : ∀ u : Vector Word 16, (windowBytes u).getD k 0 = u[k / 4].extractLsb' (24 - 8 * (k % 4)) 8 := by
    intro u
    have := windowBytes_getD u (i := k / 4) (j := k % 4) (by omega) (by omega)
    rwa [Nat.div_add_mod] at this
  have := hword v
  rw [show v[k / 4] = w[k / 4] from h ⟨k / 4, by omega⟩ (by simp; omega), ← hword w] at this
  simpa [List.getD_eq_getElem?_getD, hk.2] using this

/-! ## LOADDIN -/

/-- A DIN window after its first `n` words were written from another. -/
def writeWords (d w : Vector Word 16) : Nat → Vector Word 16
  | 0 => d
  | n + 1 => (writeWords d w n).set (Fin.ofNat 16 n) w[Fin.ofNat 16 n]

/-- The words written and the words left. -/
theorem writeWords_getElem (d w : Vector Word 16) {n : Nat} (hn : n ≤ 16) (i : Fin 16) :
    (writeWords d w n)[i] = if i.val < n then w[i] else d[i] := by
  induction n with
  | zero => rfl
  | succ n ih =>
    have hofNat : (Fin.ofNat 16 n).val = n := Nat.mod_eq_of_lt (by omega)
    rw [writeWords]
    by_cases h : i = Fin.ofNat 16 n
    · subst h
      rw [if_pos (by omega)]
      exact Vector.getElem_set_self _
    · have hne : i.val ≠ n := fun hv => h (Fin.ext (hv.trans hofNat.symm))
      rw [show (_ : Vector Word 16)[i] = (writeWords d w n)[i] from
        Vector.getElem_set_ne _ i.isLt fun hv => hne (hv.symm.trans hofNat), ih (by omega)]
      congr 1
      exact propext (by omega)

/-- An idle engine stores a host's write of a DIN word in one step (R33, R195). -/
theorem step_writeDin {s : State} {i : Fin 16} {v : Word} {rest : List HostOp} (ht : s.turns = [])
    (hp : s.pending = none) (hh : s.host = hostWR s.config (.din i) v :: rest) :
    step s = .next { s with host := rest, din := s.din.set i v } := by
  have hturns : s.withTurns [] = s := by rw [← ht]; rfl
  rw [step_host_access (.inr ⟨ht, rfl, hp⟩) hh, hturns, hostWR, hostAccess, selectReg_regAddr]
  exact congrArg _ (storeOrOverrun_idle (s.withHost rest) _ hp)

/-- An idle engine stores the first `n` words of a window in `n` steps (R78). -/
theorem run_writeWords {s : State} (w : Vector Word 16) (n : Nat) {rest : List HostOp} (ht : s.turns = [])
    (hp : s.pending = none)
    (hh : s.host = ((List.range n).map fun i => hostWR s.config (.din (Fin.ofNat 16 i)) w[Fin.ofNat 16 i]) ++ rest) :
    Host.Core.run Sys2Proof.core n s = .next { s with host := rest, din := writeWords s.din w n } := by
  induction n generalizing rest with
  | zero =>
    obtain rfl : s.host = rest := hh
    rfl
  | succ n ih =>
    rw [List.range_succ, List.map_append, List.append_assoc] at hh
    exact (run_add_of_next n 1 (ih hh)).trans (run_succ_of_next 0 (step_writeDin (i := Fin.ofNat 16 n)
      (v := w[Fin.ofNat 16 n]) (rest := rest) ht hp rfl))

/-- `be32` of a group of a byte sequence, byte by byte, with 0 for what the group lacks (R10, R78). -/
theorem packBytes_getElem (p : ByteSeq) (i : Fin 16) : (packBytes p)[i] =
    p.getD (4 * i.val) 0 ++ p.getD (4 * i.val + 1) 0 ++ p.getD (4 * i.val + 2) 0 ++ p.getD (4 * i.val + 3) 0 := by
  rw [show (packBytes p)[i] = be32 (p.drop (4 * i.val)) from Vector.getElem_ofFn _]
  simp only [be32, List.getD_eq_getElem?_getD, List.getElem?_drop, Nat.add_zero]

/-- A window that begins with a sequence's packed words begins with its bytes (R33). -/
theorem windowBytes_take_of_packed {d : Vector Word 16} {p : ByteSeq} (hp : p.length ≤ 64)
    (h : ∀ i : Fin 16, i.val < (p.length + 3) / 4 → d[i] = (packBytes p)[i]) :
    (windowBytes d).take p.length = p := by
  have hle : min p.length (4 * ((p.length + 3) / 4)) = p.length := by omega
  calc (windowBytes d).take p.length
      = ((windowBytes d).take (4 * ((p.length + 3) / 4))).take p.length := by rw [List.take_take, hle]
    _ = ((windowBytes (packBytes p)).take (4 * ((p.length + 3) / 4))).take p.length := by
        rw [windowBytes_take_congr h]
    _ = p := by rw [List.take_take, hle, windowBytes_packBytes hp, List.take_left]

/-- Settles O21: LOADDIN is the writes of the packed words, one a step. -/
theorem loadDinPlacesTheBytes : Obligations.LoadDinPlacesTheBytes := by
  intro s bytes rest hlen
  refine ⟨_, hostLOADDIN_of_le s.config hlen, fun ht hp hh => ?_⟩
  have hd : ∀ i : Fin 16, (writeWords s.din (packBytes bytes) ((bytes.length + 3) / 4))[i] =
      if i.val < (bytes.length + 3) / 4 then (packBytes bytes)[i] else s.din[i] :=
    writeWords_getElem s.din (packBytes bytes) (by omega)
  refine ⟨_, run_writeWords (packBytes bytes) _ ht hp hh, fun i hi => ?_, fun i hi => ?_,
    windowBytes_take_of_packed hlen fun i hi => ?_⟩
  · rw [hd, if_pos hi, packBytes_getElem]
  · rw [hd, if_neg (by omega)]
  · rw [hd, if_pos hi]

end Sys2Proof.Machine
end

section
/-! PROOFS. What the commands write and what they read (10_state.md R42). -/

namespace Sys2Proof.Machine

/-! ## The writes -/

/-- No command writes DIN or the host's record of its reads (R42). -/
theorem exec_din_reads {i : Instr} {s t : State} (h : exec i s = .next t) : t.din = s.din ∧ t.reads = s.reads := by
  rcases exec_next h with ⟨c, rfl⟩ | ⟨_, c, e, rfl⟩ | ⟨_, rfl⟩ | ⟨_, r, rfl⟩ <;> exact ⟨rfl, rfl⟩

/-- Only EXPORT writes CK_* (R42, R171). -/
theorem exec_ck {i : Instr} {s t : State} (h : exec i s = .next t) (hi : i ≠ .exportCk) : t.ck = s.ck := by
  rcases exec_next h with ⟨c, rfl⟩ | ⟨_, c, e, rfl⟩ | ⟨_, rfl⟩ | ⟨rfl, r, rfl⟩
  · rfl
  · rfl
  · rfl
  · contradiction

/-- Settles O34: the frame of every command, field by field, and the one answer to an illegal word. -/
theorem commandsWriteOnlyTheirFields : Obligations.CommandsWriteOnlyTheirFields := by
  refine ⟨fun i s t h => ?_, fun _ => rfl⟩
  obtain ⟨hconfig, hhost, hturns⟩ := exec_frame h
  obtain ⟨hdin, hreads⟩ := exec_din_reads h
  refine ⟨exec_pending h, hdin, hconfig, hhost, hreads, hturns, exec_ck h, exec_ovr h, ?_⟩
  rintro rfl
  exact exec_exportCk_eng h

/-! ## The reads -/

/-- A commit of a code alone is the commit of it on the engine as it was. -/
theorem commitCode_withEng_self {s : State} {e : Engine} (hs : s.eng = e) (c : ErrCode) :
    commitCode c s = commitCode c (s.withEng e) := by
  subst hs
  rfl

/-- UPDATE reads the engine and DIN: where two states agree on those, either it commits one code and one engine in both, or
it stops in both (R42, R130). -/
theorem execUpdate_reads (e : Engine) (d : Vector Word 16) (len : BitVec 7) (blv : Bool) (bitlen : BitVec 10) :
    (∃ c e', ∀ s : State, s.eng = e → s.din = d → execUpdate len blv bitlen s = .next (commitCode c (s.withEng e'))) ∨
    ∀ s : State, s.eng = e → s.din = d → execUpdate len blv bitlen s = .fault .counterOverflow := by
  have code : ∀ c, (∀ s : State, s.eng = e → execUpdate len blv bitlen s = .next (commitCode c s)) →
      ∃ c e', ∀ s : State, s.eng = e → s.din = d →
        execUpdate len blv bitlen s = .next (commitCode c (s.withEng e')) :=
    fun c h => ⟨c, e, fun s hs _ => by rw [h s hs, commitCode_withEng_self hs]⟩
  cases e with
  | fatal => exact .inl (code _ fun s hs => execUpdate_fatal hs ..)
  | final v k => exact .inl (code _ fun s hs => execUpdate_final hs ..)
  | live v k c =>
    by_cases hk : k.toNat % 8 ≠ 0
    · exact .inl (code _ fun s hs => execUpdate_partial hs hk ..)
    have hk := Decidable.not_not.mp hk
    cases hb : updateBits len blv bitlen with
    | none => exact .inl (code _ fun s hs => execUpdate_badBits hs hk hb)
    | some n =>
      by_cases hl : len = 0
      · exact .inl (code _ fun s hs => execUpdate_empty hs hk (hb ▸ Option.some_ne_none n) hl)
      by_cases hn : k.toNat + n < 2 ^ 64
      · refine .inl ⟨.ok, absorb v k c ((windowBytes d).take len.toNat) n, ?_⟩
        rintro s hs rfl
        exact execUpdate_append hs hk hb hl hn
      · exact .inr fun s hs _ => execUpdate_overflow hs hk hb hl (by omega)

/-- DIGEST reads the engine and CLEAR_TRAILING_BITS (R42, R150, R153). -/
theorem execDigest_reads (e : Engine) (clear : Bool) :
    ∃ c e', ∀ s : State, s.eng = e → s.config.clearTrailingBits = clear →
      execDigest s = .next (commitCode c (s.withEng e')) := by
  cases e with
  | fatal => exact ⟨_, _, fun s hs _ => by rw [execDigest_fatal hs, commitCode_withEng_self hs]⟩
  | final d k => exact ⟨_, _, fun s hs _ => by rw [execDigest_final hs, commitCode_withEng_self hs]⟩
  | live v k c =>
    cases hp : padCache clear k c with
    | none => exact ⟨_, _, fun s hs hc => execDigest_corrupt hs (hc ▸ hp)⟩
    | some p => exact ⟨_, _, fun s hs hc => execDigest_live hs (hc ▸ hp)⟩

/-- EXPORT reads the engine: it commits one code, and outside FATAL one record (R42, R172). -/
theorem execExport_congr {s s' t t' : State} (he : s.eng = s'.eng) (h : execExport s = .next t)
    (h' : execExport s' = .next t') : t.err = t'.err ∧ (s.eng ≠ .fatal → t.ck = t'.ck) := by
  cases hr : exportRecord s.eng with
  | none =>
    rcases execExport_next h with ⟨hf, rfl⟩ | ⟨r, hsome, _⟩
    · rw [execExport_fatal (he ▸ hf)] at h'
      cases h'
      exact ⟨rfl, fun hne => absurd hf hne⟩
    · rw [hr] at hsome
      cases hsome
  | some r =>
    rw [execExport_record hr] at h
    rw [execExport_record (he ▸ hr)] at h'
    cases h
    cases h'
    exact ⟨rfl, fun _ => rfl⟩

/-- IMPORT reads CK_*: it commits one code, and where it succeeds one engine (R42, R175). -/
theorem execImport_congr {s s' t t' : State} (hck : s.ck = s'.ck) (h : execImport s = .next t)
    (h' : execImport s' = .next t') : t.err = t'.err ∧ (t.err = .ok → t.eng = t'.eng) := by
  cases he : importEngine s.ck with
  | none =>
    rw [execImport_bad he] at h
    rw [execImport_bad (hck ▸ he)] at h'
    cases h
    cases h'
    exact ⟨rfl, fun hok => nomatch hok⟩
  | some e =>
    rw [execImport_engine he] at h
    rw [execImport_engine (hck ▸ he)] at h'
    cases h
    cases h'
    exact ⟨rfl, fun _ => rfl⟩

/-- Two outcomes that commit one code and one engine. -/
theorem commits_agree {s s' t t' : State} {c : ErrCode} {e : Engine} {o o' : Result}
    (ho : o = .next (commitCode c (s.withEng e))) (ho' : o' = .next (commitCode c (s'.withEng e)))
    (h : o = .next t) (h' : o' = .next t') : t.eng = t'.eng ∧ t.err = t'.err := by
  cases ho.symm.trans h
  cases ho'.symm.trans h'
  exact ⟨rfl, rfl⟩

/-- Settles O35: command by command, what it reads fixes what it commits. -/
theorem commandsReadOnlyTheirFields : Obligations.CommandsReadOnlyTheirFields := by
  intro s s' t t' i h h'
  refine ⟨?_, fun len blv bitlen => ?_, ?_, ?_, ?_⟩
  · rintro rfl
    cases h
    cases h'
    exact ⟨rfl, rfl⟩
  · rintro rfl he hd
    rcases execUpdate_reads s.eng s.din len blv bitlen with ⟨c, e, hall⟩ | hall
    · exact commits_agree (hall s rfl rfl) (hall s' he.symm hd.symm) h h'
    · cases (hall s rfl rfl).symm.trans h
  · rintro rfl he hc
    obtain ⟨c, e, hall⟩ := execDigest_reads s.eng s.config.clearTrailingBits
    exact commits_agree (hall s rfl rfl) (hall s' he.symm hc.symm) h h'
  · rintro rfl he
    exact execExport_congr he h h'
  · rintro rfl hck
    exact execImport_congr hck h h'

end Sys2Proof.Machine
end

section
/-! PROOFS. The two agents on the bus (20_memory.md R50 to R63, 70_reset_and_hazards.md R235, R236): the host's turns before
the commit of a pending command, and the accesses that have no step. -/

namespace Sys2Proof.Machine

/-! ## The turns before a commit -/

/-- The engine's turn is the commit of the pending word, on what is left of the schedule (R235, R236). -/
theorem step_engine_tail {s : State} {ts : List Turn} {w : Word} (hn : EngineNext s ts) (hp : s.pending = some w) :
    step s = commit w (s.withTurns s.turns.tail) := hn.eq_tail ▸ step_engine hn hp

/-- Settles O9, by induction on the schedule: a host turn that goes on leaves the operands and a shorter schedule (O10); at
any other turn, or a host turn that stops the machine, the run is over. -/
theorem pendingCommandComesToItsCommit : Obligations.PendingCommandComesToItsCommit := by
  intro s w hp
  induction hts : s.turns generalizing s with
  | nil =>
    have hn : EngineNext s [] := .inr ⟨hts, rfl, by simp [hp]⟩
    exact ⟨0, s, Nat.zero_le _, run_zero s, hp, rfl, rfl, rfl, rfl, .inl (step_engine_tail hn hp)⟩
  | cons a ts ih =>
    cases a with
    | host =>
      by_cases hstep : ∃ t, step s = .next t
      · obtain ⟨t, ht⟩ := hstep
        obtain ⟨hpend, hdin, hck, heng, herr, hturns, -⟩ :=
          hostCannotTouchAPendingCommand s t ts (by simp [hp]) hts ht
        obtain ⟨k, u, hk, hrun, hup, hueng, hudin, huck, huerr, hend⟩ := ih t (hpend.trans hp) hturns
        exact ⟨k + 1, u, Nat.succ_le_succ hk, (run_succ_of_next k ht).trans hrun, hup, hueng.trans heng,
          hudin.trans hdin, huck.trans hck, huerr.trans herr, hend⟩
      · exact ⟨0, s, Nat.zero_le _, run_zero s, hp, rfl, rfl, rfl, rfl, .inr (.inr (not_exists.mp hstep))⟩
    | engine =>
      exact ⟨0, s, Nat.zero_le _, run_zero s, hp, rfl, rfl, rfl, rfl, .inl (step_engine_tail (.inl hts) hp)⟩
    | reset => exact ⟨0, s, Nat.zero_le _, run_zero s, hp, rfl, rfl, rfl, rfl, .inr (.inl (by rw [hts]; rfl))⟩

/-! ## Accesses without a step -/

/-- An access of 8, 16 or 64 bits in the window (R55, log 6). -/
theorem selectReg_unsupportedWidth {c : Config} {addr : Nat} {width : AccessWidth} (h1 : c.shaBase ≤ addr)
    (h2 : addr < c.shaBase + 0x200) (hw : width ≠ .w32) : selectReg c addr width = .refused .unsupportedWidth := by
  unfold selectReg Config.windowBytes
  rw [if_neg (by omega), if_pos hw]

/-- A misaligned 32-bit access in the window (R55, log 6). -/
theorem selectReg_misaligned {c : Config} {addr : Nat} (h1 : c.shaBase ≤ addr) (h2 : addr < c.shaBase + 0x200)
    (h4 : addr % 4 ≠ 0) : selectReg c addr .w32 = .refused .misaligned := by
  unfold selectReg Config.windowBytes
  rw [if_neg (by omega), if_neg (by simp), if_pos h4]

section
variable {s : State} {ts : List Turn} {rest : List HostOp} {addr : Nat} {width : AccessWidth} {v : Word}

/-- A read or a write whose address selects no register stops the machine with the fault of the selection (R57). -/
theorem step_access_fault {f : Fault} (hn : HostNext s ts)
    (hh : s.host = .read addr width :: rest ∨ s.host = .write addr width v :: rest)
    (hf : selectReg s.config addr width = .fault f) : step s = .fault f := by
  rcases hh with hh | hh <;> simp only [step_host_access hn hh, hostAccess, State.withTurns_config, hf]

/-- A read or a write that the selection refuses has no step (R55). -/
theorem step_access_refused {q : Refusal} (hn : HostNext s ts)
    (hh : s.host = .read addr width :: rest ∨ s.host = .write addr width v :: rest)
    (hq : selectReg s.config addr width = .refused q) : step s = .refused q := by
  rcases hh with hh | hh <;> simp only [step_host_access hn hh, hostAccess, State.withTurns_config, hq]

end

/-- Settles O18: the access stops as the selection of its register does. -/
theorem unsupportedAccessHasNoStep : Obligations.UnsupportedAccessHasNoStep := by
  intro s ts rest addr width v hn hh
  refine ⟨fun hout => ?_, fun h1 h2 hw => ?_, fun h1 h2 hw h4 => ?_⟩
  · exact step_access_fault hn hh (selectReg_outside s.config addr width hout)
  · exact step_access_refused hn hh (selectReg_unsupportedWidth h1 h2 hw)
  · subst hw
    exact step_access_refused hn hh (selectReg_misaligned h1 h2 h4)

end Sys2Proof.Machine
end

section
/-! PROOFS. The command words (30_encoding.md R70 to R77): the legal ones are the encodings of the well-formed commands, and
the illegal ones are those of the six clauses of R74 and commit with code 5 (44_control.md R193). -/

namespace Sys2Proof.Machine

/-! ## The two ways round -/

/-- Settles O3: the fields read from a word are the operands it was encoded with (`decode_encode`). -/
theorem decodeOfEncode : Obligations.DecodeOfEncode := fun _ => decode_encode

/-- A word of the bits of an operation code alone is that code (R70). -/
theorem eq_of_bare {w : Word} {op : BitVec 4} (h0 : rsv0Field w = 0) (h1 : opField w = op) (h : operandField w = 0) :
    w = op.setWidth 32 := by
  have hw := toNat_of_bare w h0 (congrArg BitVec.toNat h1) h
  exact BitVec.eq_of_toNat_eq (by rw [hw, BitVec.toNat_setWidth, Nat.mod_eq_of_lt (by omega)])

/-- A legal word is the encoding of the command it decodes to (R75, R77). -/
theorem encode_of_decode {w : Word} {i : Instr} (h : decode w = .ok i) : encode i = w := by
  obtain ⟨h0, ⟨hop, hbits, rfl⟩ | ⟨hop, hbits, rfl⟩ | ⟨hop, hbits, rfl⟩ | ⟨hop, hbits, rfl⟩ | ⟨hop, h1, -, -, rfl⟩⟩ :=
    decode_ok_cases w h
  · exact (eq_of_bare h0 hop hbits).symm
  · exact (eq_of_bare h0 hop hbits).symm
  · exact (eq_of_bare h0 hop hbits).symm
  · exact (eq_of_bare h0 hop hbits).symm
  · exact encodeUpdate_fields w h0 h1 hop

/-- Settles O4: what decodes is well formed and is its own encoding. -/
theorem encodeOfDecode : Obligations.EncodeOfDecode :=
  fun _ _ h => ⟨decode_ok_wellFormed h, encode_of_decode h⟩

/-- The words that decode to a command (R76): its one encoding, where it is well formed. -/
theorem decode_eq_ok_iff (w : Word) (i : Instr) : decode w = .ok i ↔ i.wellFormed = true ∧ encode i = w :=
  ⟨fun h => ⟨decode_ok_wellFormed h, encode_of_decode h⟩, fun ⟨hi, hw⟩ => hw ▸ decode_encode hi⟩

/-! ## The decoder on numbers -/

/-- The line of a command without operands (R76): its one word. -/
theorem decode_eq_ok_iff_toNat {i : Instr} (hi : i.wellFormed = true) (w : Word) :
    decode w = .ok i ↔ w.toNat = (encode i).toNat := by
  rw [decode_eq_ok_iff, ← BitVec.toNat_inj]
  exact ⟨fun h => h.2.symm, fun h => ⟨hi, h.symm⟩⟩

/-- The legal operands of an UPDATE, as numbers (R73). -/
theorem wellFormed_update_iff (len : BitVec 7) (blv : Bool) (bitlen : BitVec 10) :
    (Instr.update len blv bitlen).wellFormed = true ↔ len.toNat ≤ 64 ∧ (blv = true ∨ bitlen.toNat = 0) := by
  have hlen : lenLegal len = true ↔ len.toNat ≤ 64 := decide_eq_true_iff
  simp [Instr.wellFormed, hlen, bitlenLegal, field_eq_iff]

/-- The word of an UPDATE, by the digits of its number (R70). -/
theorem encodeUpdate_eq_iff (w : Word) (len : BitVec 7) (blv : Bool) (bitlen : BitVec 10) :
    encodeUpdate len blv bitlen = w ↔
      w.toNat % 2 ^ 4 = 2 ∧ w.toNat / 2 ^ 4 % 2 ^ 4 = 0 ∧ w.toNat / 2 ^ 26 = 0 ∧
      len.toNat = w.toNat / 2 ^ 8 % 2 ^ 7 ∧ blv = decide (w.toNat / 2 ^ 15 % 2 = 1) ∧
      bitlen.toNat = w.toNat / 2 ^ 16 % 2 ^ 10 := by
  constructor
  · rintro rfl
    rw [← opField_toNat, ← rsv0Field_toNat, ← rsv1Field_toNat, ← lenField_toNat, ← blvField_eq, ← bitlenField_toNat,
      opField_encodeUpdate, rsv0Field_encodeUpdate, rsv1Field_encodeUpdate, lenField_encodeUpdate,
      blvField_encodeUpdate, bitlenField_encodeUpdate]
    exact ⟨rfl, rfl, rfl, rfl, rfl, rfl⟩
  · rw [← opField_toNat, ← rsv0Field_toNat, ← rsv1Field_toNat, ← lenField_toNat, ← blvField_eq, ← bitlenField_toNat]
    rintro ⟨hop, h0, h1, hlen, rfl, hbitlen⟩
    rw [BitVec.eq_of_toNat_eq hlen, BitVec.eq_of_toNat_eq hbitlen]
    exact encodeUpdate_fields w (BitVec.eq_of_toNat_eq h0) (BitVec.eq_of_toNat_eq h1) (BitVec.eq_of_toNat_eq hop)

/-- Settles O5: a line of R76 is the well-formed command's one encoding, read as a number. -/
theorem decoderReadsTheFields : Obligations.DecoderReadsTheFields := by
  intro w
  refine ⟨decode_eq_ok_iff_toNat rfl w, decode_eq_ok_iff_toNat rfl w, decode_eq_ok_iff_toNat rfl w,
    decode_eq_ok_iff_toNat rfl w, fun len blv bitlen => ?_⟩
  rw [decode_eq_ok_iff, wellFormed_update_iff, encode, encodeUpdate_eq_iff]
  tauto

/-! ## The illegal words -/

/-- The words that decode at all, as numbers (R76). -/
theorem exists_decode_ok_iff (w : Word) : (∃ i, decode w = .ok i) ↔
    w.toNat = 1 ∨ w.toNat = 3 ∨ w.toNat = 4 ∨ w.toNat = 5 ∨
      (w.toNat % 2 ^ 4 = 2 ∧ w.toNat / 2 ^ 4 % 2 ^ 4 = 0 ∧ w.toNat / 2 ^ 26 = 0 ∧ w.toNat / 2 ^ 8 % 2 ^ 7 ≤ 64 ∧
        (w.toNat / 2 ^ 15 % 2 = 1 ∨ w.toNat / 2 ^ 16 % 2 ^ 10 = 0)) := by
  obtain ⟨hinit, hdigest, hexport, himport, hupdate⟩ := decoderReadsTheFields w
  constructor
  · rintro ⟨i, h⟩
    cases i with
    | init => exact .inl (hinit.mp h)
    | update len blv bitlen =>
      obtain ⟨hop, h0, h1, hlen, hle, rfl, hbitlen, hblv⟩ := (hupdate len blv bitlen).mp h
      exact .inr (.inr (.inr (.inr ⟨hop, h0, h1, hlen ▸ hle, hblv.imp of_decide_eq_true hbitlen.symm.trans⟩)))
    | digest => exact .inr (.inl (hdigest.mp h))
    | exportCk => exact .inr (.inr (.inl (hexport.mp h)))
    | importCk => exact .inr (.inr (.inr (.inl (himport.mp h))))
  · rintro (h | h | h | h | ⟨hop, h0, h1, hle, hblv⟩)
    · exact ⟨_, hinit.mpr h⟩
    · exact ⟨_, hdigest.mpr h⟩
    · exact ⟨_, hexport.mpr h⟩
    · exact ⟨_, himport.mpr h⟩
    · rw [← lenField_toNat] at hle
      rw [← bitlenField_toNat] at hblv
      exact ⟨_, (hupdate _ _ _).mpr ⟨hop, h0, h1, lenField_toNat w, hle, rfl, bitlenField_toNat w,
        hblv.imp_left decide_eq_true⟩⟩

/-- A word is illegal exactly when it is no command's (R74, R76). -/
theorem exists_decode_error_iff (w : Word) : (∃ e, decode w = .error e) ↔ ¬∃ i, decode w = .ok i := by
  cases decode w <;> simp

/-- Settles O6: the clauses of R74 are together the negation of R76's lines, and the commit of an illegal word is INVALID. -/
theorem illegalWordsCommitWithCode5 : Obligations.IllegalWordsCommitWithCode5 := by
  intro w
  refine ⟨?_, fun e s he => commit_error he s⟩
  rw [exists_decode_error_iff, exists_decode_ok_iff]
  omega

/-! ## The encoding functions -/

/-- An UPDATE word as R77 writes it: the fields shifted to their places. -/
theorem encodeUpdate_eq_or (len : BitVec 7) (blv : Bool) (bitlen : BitVec 10) :
    encodeUpdate len blv bitlen = 0x00000002 ||| (len.setWidth 32 <<< 8) ||| ((BitVec.ofBool blv).setWidth 32 <<< 15) |||
      (bitlen.setWidth 32 <<< 16) := by
  apply BitVec.eq_of_getLsbD_eq
  intro i hi
  rw [encodeUpdate_getLsbD]
  interval_cases i <;> simp

/-- Settles O1: the fields of an UPDATE are or-ed together, and those that are 0 add nothing; the table is by computation. -/
theorem encodingFunctions : Obligations.EncodingFunctions := by
  refine ⟨rfl, rfl, rfl, rfl, fun n => ?_, fun n b => ?_, by decide⟩
  · rw [encode, encodeUpdate_eq_or]
    simp
  · exact encodeUpdate_eq_or n true b

/-- Settles O2: each word is decoded by computation. -/
theorem sampleWordsDecode : Obligations.SampleWordsDecode := by
  unfold Obligations.SampleWordsDecode
  decide

end Sys2Proof.Machine
end

section
/-! PROOFS. The host's commands (30_encoding.md R78): RUN, and the source's update call, chunk by chunk, on an engine that
holds a message (41_update.md R133, R137, R241). -/

namespace Sys2Proof.Machine

/-! ## RUN -/

/-- An idle engine takes a host's write to CMD as its pending command (R31, R195). -/
theorem step_writeCmd {s : State} {w : Word} {rest : List HostOp} (ht : s.turns = []) (hp : s.pending = none)
    (hh : s.host = hostWR s.config .cmd w :: rest) :
    step s = .next { s with host := rest, pending := some w } := by
  have hturns : s.withTurns [] = s := by rw [← ht]; rfl
  rw [step_host_access (.inr ⟨ht, rfl, hp⟩) hh, hturns, hostWR, hostAccess, selectReg_regAddr]
  exact congrArg _ (storeOrOverrun_idle (s.withHost rest) _ hp)

/-- With no turn scheduled, a pending well-formed command is what the next step runs (R190, log 2). -/
theorem step_pendingCommand {s : State} {i : Instr} (ht : s.turns = []) (hp : s.pending = some (encode i))
    (hi : i.wellFormed = true) : step s = exec i s := by
  have hturns : s.withTurns [] = s := by rw [← ht]; rfl
  rw [step_engine (.inr ⟨ht, rfl, by simp [hp]⟩) hp, commit_ok (decode_encode hi), hturns]

/-- Settles O20: the three turns are the write to CMD, the commit and one poll, which finds BUSY fallen (O19). -/
theorem runWritesCommitsAndWaits : Obligations.RunWritesCommitsAndWaits := by
  intro s t i rest hi ht hp hh hexec
  obtain ⟨hconfig, hhost, hturns⟩ := exec_frame hexec
  have hpend := exec_pending hexec
  have hwrite := step_writeCmd (rest := .wait :: rest) ht hp hh
  have hcommit : step { s with host := .wait :: rest, pending := some (encode i) } = .next t := by
    rw [← hexec]
    exact step_pendingCommand ht rfl hi
  obtain ⟨hbusy, hwait⟩ := (waitPollsWhileBusy t [] rest (.inr ⟨hturns.trans ht, rfl, hpend⟩) hhost).1 hpend
  refine ⟨?_, hbusy⟩
  rw [run_succ_of_next 2 hwrite, run_succ_of_next 1 hcommit, run_succ_of_next 0 hwait, run_zero, hconfig,
    show t.turns = [] from hturns.trans ht]

/-! ## UPDATE on an engine that holds a message -/

/-- The drain removes no more bytes than there are. -/
theorem drainCount_le (t len : Nat) : 64 * drainCount t len ≤ len := by
  unfold drainCount
  split <;> omega

/-- An engine that holds a byte-aligned message holds, after a chunk of `n` bits, that message followed by the chunk: the
drain's blocks follow those compressed before (R133, R134). -/
theorem absorb_holds {v : Vector Word 8} {q : DWord} {c bytes p : ByteSeq} {k n : Nat}
    (h : (Engine.live v q c).Holds bytes k) (hk : k % 8 = 0) (hn : n ≤ 8 * p.length) (hm : 8 * p.length < n + 8)
    (hlt : k + n < 2 ^ 64) : (absorb v q c p n).Holds (bytes ++ p) (k + n) := by
  obtain ⟨rfl, hlen, hc, b, hb, rfl, rfl⟩ := h
  have hinv := absorb_inv (v := compressBlocks b initialH bytes) hc hk hn hm hlt
  rw [absorb_eq] at hinv ⊢
  rw [Engine.Inv, counter_add_toNat hlt] at hinv
  rw [Engine.Holds, counter_add_toNat hlt]
  have hle := drainCount_le (q.toNat + n) (bytes.drop (64 * b) ++ p).length
  generalize drainCount (q.toNat + n) (bytes.drop (64 * b) ++ p).length = d at *
  have hdrop : (bytes ++ p).drop (64 * b) = bytes.drop (64 * b) ++ p :=
    List.drop_append_of_le_length (by omega)
  refine ⟨rfl, by rw [List.length_append]; omega, hinv, b + d, ?_, ?_, ?_⟩
  · simp only [List.length_append, List.length_drop] at hle ⊢
    omega
  · rw [compressBlocks_add, hdrop, compressBlocks_append b _ _ _ (by omega)]
  · rw [← hdrop, List.drop_drop, Nat.mul_add]

/-- An UPDATE that R132 accepts, on an engine that holds a byte-aligned message, completes with the chunk appended (R130). -/
theorem execUpdate_holds {s : State} {bytes : ByteSeq} {k n : Nat} {len : BitVec 7} {blv : Bool} {bitlen : BitVec 10}
    (h : s.eng.Holds bytes k) (hk : k % 8 = 0) (hlen : len.toNat ≤ 64) (hb : updateBits len blv bitlen = some n)
    (hlt : k + n < 2 ^ 64) :
    ∃ t, exec (.update len blv bitlen) s = .next t ∧ t.err = .ok ∧ t.eng.Holds (bytes ++ chunk len s) (k + n) := by
  obtain ⟨hn, hm⟩ := updateBits_bounds hb
  cases he : s.eng with
  | live v q c =>
    rw [he] at h
    have hq : q.toNat = k := h.1
    by_cases hl : len = 0
    · obtain rfl : n = 0 := by simpa [hl] using hn
      refine ⟨_, execUpdate_empty he (hq ▸ hk) (hb ▸ Option.some_ne_none 0) hl, rfl, ?_⟩
      simpa [he, hl, chunk] using h
    · refine ⟨_, execUpdate_append he (hq ▸ hk) hb hl (hq ▸ hlt), rfl, ?_⟩
      rw [← chunk_length len s hlen] at hn hm
      exact absorb_holds h hk hn hm hlt
  | final d q => rw [he] at h; exact h.elim
  | fatal => rw [he] at h; exact h.elim

/-! ## The source's update call -/

/-- The engine is idle with nothing scheduled and `ops` as the host's next operations. -/
structure IdleBefore (ops : List HostOp) (s : State) : Prop where
  turns : s.turns = []
  pending : s.pending = none
  host : s.host = ops

/-- What a whole update call on `s` leaves: an idle engine that holds `bytes`, `k` bits, with code 0 (R78, R137). -/
structure CallDone (s : State) (bytes : ByteSeq) (k : Nat) (rest : List HostOp) (t : State) : Prop where
  idle : IdleBefore rest t
  holds : t.eng.Holds bytes k
  err : t.err = .ok
  ovr : t.ovr = s.ovr
  ck : t.ck = s.ck
  config : t.config = s.config

/-- A call after another one. -/
theorem CallDone.trans {s t u : State} {bytes bytes' : ByteSeq} {k k' : Nat} {rest rest' : List HostOp}
    (h : CallDone s bytes k rest t) (h' : CallDone t bytes' k' rest' u) : CallDone s bytes' k' rest' u :=
  ⟨h'.idle, h'.holds, h'.err, h'.ovr.trans h.ovr, h'.ck.trans h.ck, h'.config.trans h.config⟩

/-- `ops` is a sequence that takes any engine on the platform `c` that holds a byte-aligned message to one that holds it
followed by `m`, `n` bits. -/
def Appends (c : Config) (m : ByteSeq) (n : Nat) (ops : List HostOp) : Prop :=
  ∀ (s : State) (bytes : ByteSeq) (k : Nat) (rest : List HostOp), s.config = c → s.eng.Holds bytes k → k % 8 = 0 →
    k + n < 2 ^ 64 → IdleBefore (ops ++ rest) s →
    ∃ j t, Host.Core.run Sys2Proof.core j s = .next t ∧ CallDone s (bytes ++ m) (k + n) rest t

/-- Sequences one after the other append one after the other; the first must keep the message byte-aligned (R137). -/
theorem Appends.append {c : Config} {m m' : ByteSeq} {n n' : Nat} {ops ops' : List HostOp} (h : Appends c m n ops)
    (h' : Appends c m' n' ops') (hn : n % 8 = 0) : Appends c (m ++ m') (n + n') (ops ++ ops') := by
  intro s bytes k rest hc hs hk hlt hidle
  rw [List.append_assoc] at hidle
  obtain ⟨j, t, hrun, ht⟩ := h s bytes k _ hc hs hk (by omega) hidle
  obtain ⟨j', u, hrun', hu⟩ := h' t _ _ rest (ht.config.trans hc) ht.holds (by omega) (by omega) ht.idle
  refine ⟨j + j', u, (run_add_of_next j j' hrun).trans hrun', ?_⟩
  rw [← List.append_assoc, ← Nat.add_assoc]
  exact ht.trans hu

/-- `RUN UPDATE` on an idle engine that holds a byte-aligned message, of a chunk that stands in DIN (R78, R130). -/
theorem run_update {s : State} {bytes : ByteSeq} {k n : Nat} {len : BitVec 7} {blv : Bool} {bitlen : BitVec 10}
    {rest : List HostOp} (hidle : IdleBefore (hostRUN s.config (.update len blv bitlen) ++ rest) s)
    (hs : s.eng.Holds bytes k) (hk : k % 8 = 0) (hi : (Instr.update len blv bitlen).wellFormed = true)
    (hb : updateBits len blv bitlen = some n) (hlt : k + n < 2 ^ 64) :
    ∃ t, Host.Core.run Sys2Proof.core 3 s = .next t ∧ CallDone s (bytes ++ chunk len s) (k + n) rest t := by
  obtain ⟨hlen, -⟩ := (wellFormed_update_iff len blv bitlen).mp hi
  obtain ⟨t, hexec, herr, hholds⟩ := execUpdate_holds
    (s := { s with host := .wait :: rest, pending := some (encode (.update len blv bitlen)) }) hs hk hlen hb hlt
  obtain ⟨hconfig, -, hturns⟩ := exec_frame hexec
  have hpend := exec_pending hexec
  have hovr := exec_ovr hexec (by simp)
  have hck := exec_ck hexec (by simp)
  have hrun := (runWritesCommitsAndWaits s t _ rest hi hidle.turns hidle.pending hidle.host hexec).1
  exact ⟨_, hrun, ⟨hturns.trans hidle.turns, hpend, rfl⟩, hholds, herr, hovr, hck, hconfig⟩

/-- A call of up to 64 bytes is one chunk, which LOADDIN places in DIN and one UPDATE appends (R78, O21). -/
theorem hostChunk_appends (c : Config) {m : ByteSeq} {bitlen : Option Nat} {n : Nat}
    (h : callBits m.length bitlen = some n) (hm : m.length ≤ 64) :
    ∃ ops, hostChunk c m bitlen = some ops ∧ Appends c m n ops := by
  obtain ⟨len, blv, x, hinstr, hlen, hb⟩ := updateInstr_of_callBits h hm
  obtain ⟨-, hi, -⟩ := updateInstr_some hinstr
  refine ⟨_, hostChunk_some (hostLOADDIN_of_le c hm) hinstr, ?_⟩
  rintro s bytes k rest rfl hs hk hlt hidle
  obtain ⟨ops, hops, hload⟩ := loadDinPlacesTheBytes s m (hostRUN s.config (.update len blv x) ++ rest) hm
  obtain rfl := Option.some.inj ((hostLOADDIN_of_le s.config hm).symm.trans hops)
  rw [List.append_assoc] at hidle
  obtain ⟨d, hrun, -, -, hdin⟩ := hload hidle.turns hidle.pending hidle.host
  obtain ⟨t, hrun', ht⟩ := run_update
    (s := { s with host := hostRUN s.config (.update len blv x) ++ rest, din := d })
    ⟨hidle.turns, hidle.pending, rfl⟩ hs hk hi hb hlt
  rw [chunk_eq, hlen, hdin] at ht
  exact ⟨_, t, (run_add_of_next _ 3 hrun).trans hrun', ht.idle, ht.holds, ht.err, ht.ovr, ht.ck, ht.config⟩

/-- The sequence of a call of any length: a full chunk of 512 bits while more than 64 bytes remain, then the rest (R137). -/
theorem hostUpdateCall_appends (c : Config) (f : Nat) {m : ByteSeq} {bitlen : Option Nat} {n : Nat}
    (h : callBits m.length bitlen = some n) (hf : m.length ≤ f + 64) :
    ∃ ops, hostUpdateCall c f m bitlen = some ops ∧ Appends c m n ops := by
  induction f generalizing m bitlen n with
  | zero => exact hostChunk_appends c h (by omega)
  | succ f ih =>
    by_cases hm : m.length ≤ 64
    · rw [hostUpdateCall_of_le c _ bitlen hm]
      exact hostChunk_appends c h hm
    · obtain ⟨hn, b, hafter, hbits⟩ := callBits_afterBlock h (by omega)
      have htake : callBits (m.take 64).length none = some 512 := by
        rw [List.length_take, Nat.min_eq_left (by omega)]
        rfl
      rw [← List.length_drop] at hbits
      obtain ⟨first, hfirst, happ⟩ := hostChunk_appends c htake (by simp)
      obtain ⟨rest, hrest, happ'⟩ := ih hbits (by rw [List.length_drop]; omega)
      refine ⟨_, hostUpdateCall_succ (by omega) hfirst hafter hrest, ?_⟩
      have := happ.append happ' rfl
      rwa [List.take_append_drop, Nat.add_sub_cancel' hn] at this

/-- Settles O41: the checking host issues the call's sequence, and its chunks append one after the other. -/
theorem hostUpdateExtendsTheMessage : Obligations.HostUpdateExtendsTheMessage := by
  intro s bytes m k n bitlen rest hs hk hcall hlt
  obtain ⟨ops, hops, happ⟩ := hostUpdateCall_appends s.config m.length hcall (by omega)
  refine ⟨ops, by rw [hostCheckedUpdate, hcall]; exact hops, fun ht hp hh => ?_⟩
  obtain ⟨j, t, hrun, hdone⟩ := happ s bytes k rest rfl hs hk hlt ⟨ht, hp, hh⟩
  exact ⟨j, t, hrun, hdone.holds, hdone.err, hdone.idle.pending, hdone.idle.host, hdone.idle.turns, hdone.ovr, hdone.ck,
    hdone.config⟩

end Sys2Proof.Machine
end

section
/-! PROOFS. The bit functions of 40_compression.md (R103 to R108), bit by bit. -/

namespace Sys2Proof.Machine

/-! ## Choice and majority -/

theorem ch_getLsbD (x y z : Word) {i : Nat} (h : i < 32) :
    (ch x y z).getLsbD i = if x.getLsbD i then y.getLsbD i else z.getLsbD i := by
  simp only [ch, BitVec.getLsbD_xor, BitVec.getLsbD_and, BitVec.getLsbD_not, h, decide_true, Bool.true_and]
  cases x.getLsbD i <;> simp

theorem maj_getLsbD_iff (x y z : Word) (i : Nat) :
    (maj x y z).getLsbD i = true ↔ 2 ≤ (x.getLsbD i).toNat + (y.getLsbD i).toNat + (z.getLsbD i).toNat := by
  simp only [maj, BitVec.getLsbD_xor, BitVec.getLsbD_and]
  cases x.getLsbD i <;> cases y.getLsbD i <;> cases z.getLsbD i <;> decide

/-- Settles O22: the two bit lemmas, the formulas by definition, and the examples by evaluation. -/
theorem choiceAndMajorityBits : Obligations.ChoiceAndMajorityBits :=
  ⟨fun x y z i hi => ⟨ch_getLsbD x y z hi, maj_getLsbD_iff x y z i⟩, fun _ _ _ => ⟨rfl, rfl⟩, by decide, by decide⟩

/-! ## Rotation and shift (R9), and the mixing functions made of them -/

/-- ROTR(x, n) takes bit `i` from bit `i + n`, which wraps past bit 31 (R9). -/
theorem rotr_getLsbD (x : Word) {n i : Nat} (hn : 0 < n) (hn' : n < 32) (hi : i < 32) :
    (rotr x n).getLsbD i = x.getLsbD ((i + n) % 32) := by
  simp only [rotr, BitVec.getLsbD_or, BitVec.getLsbD_ushiftRight, BitVec.getLsbD_shiftLeft]
  by_cases h : i + n < 32
  · simp [Nat.mod_eq_of_lt h, Nat.add_comm n i, show i < 32 - n by omega]
  · have hwrap : (i + n) % 32 = i - (32 - n) := by omega
    simp [hwrap, hi, show ¬i < 32 - n by omega, show 32 ≤ n + i by omega]

/-- SHR(x, n) takes bit `i` from bit `i + n`, and zeros come in at the top (R9). -/
theorem shr_getLsbD (x : Word) (n i : Nat) : (shr x n).getLsbD i = (decide (i + n < 32) && x.getLsbD (i + n)) := by
  rw [shr, BitVec.getLsbD_ushiftRight, Nat.add_comm n i]
  by_cases h : i + n < 32
  · simp [h]
  · simp [h, show 32 ≤ i + n by omega]

/-- Settles O23: bit `i` of an exclusive or of rotations and shifts, and the examples by evaluation. -/
theorem mixingFunctionBits : Obligations.MixingFunctionBits := by
  refine ⟨fun x i hi => ?_, by decide, by decide, by decide, by decide⟩
  simp only [bigSigma0, bigSigma1, smallSigma0, smallSigma1, BitVec.getLsbD_xor, shr_getLsbD]
  simp [rotr_getLsbD, hi, -BitVec.getLsbD_eq_getElem]

end Sys2Proof.Machine
end

section
/-! PROOFS. The message schedule and the 64 rounds (40_compression.md R110, R111). -/

namespace Sys2Proof.Machine

/-! ## The schedule -/

/-- From 16 on, word `t` of the schedule is made from the words before it (R110). -/
theorem schedule_getD_recurrence (blk : ByteSeq) {t : Nat} (h16 : 16 ≤ t) (h64 : t < 64) :
    (schedule blk).getD t 0 =
      smallSigma1 ((schedule blk).getD (t - 2) 0) + (schedule blk).getD (t - 7) 0 +
        smallSigma0 ((schedule blk).getD (t - 15) 0) + (schedule blk).getD (t - 16) 0 := by
  have hback : ∀ j < 16, ((extendSchedule 48 (blockWords blk).reverse).drop (63 - t + 1)).getD j 0 =
      (schedule blk).getD (t - (j + 1)) 0 := by
    intro j hj
    rw [schedule_getD blk _ (by omega), List.getD_eq_getElem?_getD, List.getElem?_drop, ← List.getD_eq_getElem?_getD]
    congr 1
    omega
  rw [schedule_getD blk t h64, extendSchedule_getD 48 _ _ (by omega), nextScheduleWord, hback 1 (by omega),
    hback 6 (by omega), hback 14 (by omega), hback 15 (by omega)]

/-- Settles O24: the block's own words, then the recurrence. -/
theorem scheduleRecurrence : Obligations.ScheduleRecurrence := by
  refine fun blk _ => ⟨schedule_length blk, fun t ht => ?_, fun t h16 h64 => schedule_getD_recurrence blk h16 h64⟩
  rw [schedule_getD_block blk t ht]
  simp [be32, List.getD_eq_getElem?_getD]

/-! ## The rounds -/

theorem runRounds_concat (r : Work) (kws : List (Word × Word)) (k w : Word) :
    runRounds r (kws ++ [(k, w)]) = oneRound (runRounds r kws) k w := by
  simp [runRounds]

/-- The rounds by index are the rounds in the order of the list of constants and schedule words. -/
theorem workAfter_eq_runRounds (v : Vector Word 8) (blk : ByteSeq) {n : Nat} (h : n ≤ 64) :
    workAfter v blk n = runRounds (workOf v) ((roundConstants.zip (schedule blk)).take n) := by
  induction n with
  | zero => rfl
  | succ n ih =>
    have hround : (roundConstants.zip (schedule blk)).take (n + 1) =
        (roundConstants.zip (schedule blk)).take n ++ [(roundConstants.getD n 0, (schedule blk).getD n 0)] := by
      rw [List.take_succ_eq_append_getElem (by simp; omega), List.getElem_zip, List.getElem_eq_getD 0, List.getElem_eq_getD 0]
    rw [hround, runRounds_concat, ← ih (by omega)]
    rfl

theorem compress_eq_addWork_workAfter (v : Vector Word 8) (blk : ByteSeq) :
    compress v blk = addWork v (workAfter v blk 64) := by
  rw [compress, workAfter_eq_runRounds v blk le_rfl, List.take_of_length_le (by simp)]

set_option maxRecDepth 100000 in
/-- The worked example of R111. -/
theorem compress_initialH_zeros : compress initialH (zeros 64) =
    #v[0xda5698be, 0x17b9b469, 0x62335799, 0x779fbeca, 0x8ce5d491, 0xc0d26243, 0xbafef9ea, 0x1837a9d8] := by decide

/-- Settles O25: the rounds by index, and the worked example. -/
theorem compressionIsSixtyFourRounds : Obligations.CompressionIsSixtyFourRounds :=
  ⟨fun h blk _ => compress_eq_addWork_workAfter h blk, compress_initialH_zeros⟩

end Sys2Proof.Machine
end

section
/-! PROOFS. The constant tables of 40_compression.md as root fractions of the primes (R102). -/

namespace Sys2Proof.Machine

/-- The first 32 bits of the fractional part of the `n`-th root of `p`: the root times 2^32, rounded down, modulo 2^32. -/
def rootFraction (n p : Nat) : Word := BitVec.ofNat 32 (Nat.nthRoot n (p * 2 ^ (32 * n)) % 2 ^ 32)

/-- Of the numbers below `n` that satisfy `P`, in order, the one at the place `count P p` is `p`. -/
theorem getElem?_filter_range_count (P : Nat → Prop) [DecidablePred P] {n p : Nat} (hp : P p) (h : p < n) :
    ((List.range n).filter P)[Nat.count P p]? = some p := by
  induction n with
  | zero => omega
  | succ n ih =>
    rw [List.range_succ, List.filter_append]
    obtain hlt | rfl : p < n ∨ p = n := by omega
    · obtain ⟨hlen, -⟩ := List.getElem?_eq_some_iff.mp (ih hlt)
      rw [List.getElem?_append_left hlen, ih hlt]
    · simp [Nat.count, List.countP_eq_length_filter, hp]

/-- A table that lists the root fractions of the primes below `m` holds, at each place `i` it has, that of the `i`-th prime. -/
theorem getD_rootFraction_table {tab : List Word} {n m : Nat}
    (htab : ((List.range m).filter Nat.Prime).map (rootFraction n) = tab) {p : Nat} (hp : p.Prime)
    (h : Nat.count Nat.Prime p < tab.length) : tab.getD (Nat.count Nat.Prime p) 0 = rootFraction n p := by
  subst htab
  rw [List.length_map, ← List.countP_eq_length_filter] at h
  have hpm : p < m := Nat.lt_of_count_lt_count h
  simp [List.getD_eq_getElem?_getD, getElem?_filter_range_count Nat.Prime hp hpm]

/-! The tables are compared in the kernel: `Nat.minFac`, which decides primality, is well-founded, so plain `decide` is stuck. -/

theorem roundConstants_eq_cube_root_fractions :
    ((List.range 312).filter Nat.Prime).map (rootFraction 3) = roundConstants := by decide +kernel

theorem initialH_eq_square_root_fractions :
    ((List.range 20).filter Nat.Prime).map (rootFraction 2) = initialH.toList := by decide +kernel

/-- Settles O26: the two tables list the root fractions of the primes in order, with the roots of `Nat.nthRoot`. -/
theorem constantsAreRootFractions : Obligations.ConstantsAreRootFractions := by
  constructor
  · rintro p _ hp rfl hi
    exact ⟨_, Nat.pow_nthRoot_le (.inl three_ne_zero), Nat.lt_pow_nthRoot_add_one three_ne_zero _,
      getD_rootFraction_table roundConstants_eq_cube_root_fractions hp hi⟩
  · rintro p _ hp rfl hi
    exact ⟨_, Nat.pow_nthRoot_le (.inl two_ne_zero), Nat.lt_pow_nthRoot_add_one two_ne_zero _,
      getD_rootFraction_table initialH_eq_square_root_fractions hp hi⟩

end Sys2Proof.Machine
end

section
/-! PROOFS. UPDATE (41_update.md R130 to R138): its checks in their order, the bit lengths it accepts, where it stops, and what
it appends, counts and compresses. -/

namespace Sys2Proof.Machine

/-! ## The checks -/

/-- Settles O29: one answer for each mode and each check. -/
theorem updateChecksInOrder : Obligations.UpdateChecksInOrder := by
  intro s len blv bitlen
  refine ⟨fun hs => ?_, fun d t hs => ?_, fun h t c hs ht => ?_, fun h t c hs ht hb => ?_, fun h t c hs ht hb hl => ?_⟩
  · exact execUpdate_fatal hs len blv bitlen
  · exact execUpdate_final hs len blv bitlen
  · exact execUpdate_partial hs ht len blv bitlen
  · exact execUpdate_badBits hs ht hb
  · exact execUpdate_empty hs ht hb hl

/-- With a bit length, aligned or not, UPDATE accepts exactly the LEN that is the bit length in bytes, rounded up (R132). -/
theorem updateBits_true (len : BitVec 7) (bitlen : BitVec 10) :
    updateBits len true bitlen = if len.toNat = (bitlen.toNat + 7) / 8 then some bitlen.toNat else none := by
  rw [updateBits, if_pos rfl]
  by_cases h8 : bitlen.toNat % 8 = 0
  · rw [if_pos h8]
    exact if_congr (by omega) rfl rfl
  · rw [if_neg h8]
    exact if_congr (by omega) rfl rfl

/-- Settles O30: `updateBits_true`, of which an aligned bit length is the case without rounding. -/
theorem updateBitLengthCheck : Obligations.UpdateBitLengthCheck := by
  intro len bitlen
  rw [updateBits_true]
  refine ⟨rfl, fun h8 => ⟨fun h => if_pos (by omega), fun h => if_neg (by omega)⟩,
    fun h8 => ⟨by omega, fun h => if_pos h, fun h => if_neg h⟩, fun s h t c blv hs ht hb => execUpdate_badBits hs ht hb⟩

/-- Settles O31: the answer to an empty input, and `updateBits_true` for LEN = 0. -/
theorem emptyUpdateIsANoOp : Obligations.EmptyUpdateIsANoOp := by
  refine ⟨fun s h t c blv bitlen hs ht hb => execUpdate_empty hs ht hb rfl, fun blv bitlen => ?_⟩
  cases blv with
  | false => simp [updateBits]
  | true =>
    have hzero : 0 = (bitlen.toNat + 7) / 8 ↔ bitlen = 0#10 := by
      rw [field_eq_iff, BitVec.toNat_ofNat]
      omega
    simp [updateBits_true, hzero]

/-! ## The model fault -/

/-- The one way UPDATE stops (R133). -/
theorem execUpdate_fault {len : BitVec 7} {blv : Bool} {bitlen : BitVec 10} {s : State} {f : Fault}
    (h : execUpdate len blv bitlen s = .fault f) :
    ∃ v k c n, s.eng = .live v k c ∧ k.toNat % 8 = 0 ∧ updateBits len blv bitlen = some n ∧ len ≠ 0 ∧
      2 ^ 64 ≤ k.toNat + n := by
  cases hs : s.eng with
  | fatal => cases (execUpdate_fatal hs ..).symm.trans h
  | final d k => cases (execUpdate_final hs ..).symm.trans h
  | live v k c =>
    by_cases hk : k.toNat % 8 = 0
    · cases hb : updateBits len blv bitlen with
      | none => cases (execUpdate_badBits hs hk hb).symm.trans h
      | some n =>
        by_cases hl : len = 0
        · cases (execUpdate_empty hs hk (hb ▸ Option.some_ne_none n) hl).symm.trans h
        by_cases hn : k.toNat + n < 2 ^ 64
        · cases (execUpdate_append hs hk hb hl hn).symm.trans h
        · exact ⟨v, k, c, n, rfl, hk, rfl, hl, by omega⟩
    · cases (execUpdate_partial hs hk ..).symm.trans h

/-- Settles O33: only UPDATE can stop, and `execUpdate_fault` says where. -/
theorem onlyCounterOverflowFaults : Obligations.OnlyCounterOverflowFaults := by
  intro s i
  refine ⟨⟨fun h => ?_, ?_⟩, fun h => (exec_stops i s).resolve_right fun hf => h hf.1⟩
  · obtain ⟨t, ht⟩ | ⟨-, len, blv, bitlen, rfl⟩ := exec_stops i s
    · cases ht.symm.trans h
    · obtain ⟨v, k, c, n, hfault⟩ := execUpdate_fault h
      exact ⟨len, blv, bitlen, v, k, c, n, rfl, hfault⟩
  · rintro ⟨len, blv, bitlen, v, k, c, n, rfl, hs, hk, hb, hl, hn⟩
    exact execUpdate_overflow hs hk hb hl hn

/-! ## The append -/

/-- Less than a block stays in the cache. -/
theorem drain_of_lt {t : Nat} {v : Vector Word 8} {c : ByteSeq} (h : c.length < 64) : drain t v c = (v, c) := by
  have hcount : drainCount t c.length = 0 := by
    unfold drainCount
    split <;> omega
  rw [drain_eq, hcount]
  rfl

/-- A full block is compressed where the count is byte-aligned. -/
theorem drain_full_aligned {t : Nat} {v : Vector Word 8} {c : ByteSeq} (h : c.length = 64) (ht : t % 8 = 0) :
    drain t v c = (compress v c, []) := by
  have hcount : drainCount t c.length = 1 := by rw [h, drainCount, if_pos ht]
  rw [drain_eq, hcount, List.drop_eq_nil_of_le (by omega), compressBlocks_succ, compress_take]
  rfl

/-- A full block is withheld where its last byte is partial (R134, R139). -/
theorem drain_full_partial {t : Nat} {v : Vector Word 8} {c : ByteSeq} (h : c.length = 64) (ht : t % 8 ≠ 0) :
    drain t v c = (v, c) := by
  have hcount : drainCount t c.length = 0 := by rw [h, drainCount, if_neg ht]
  rw [drain_eq, hcount]
  rfl

/-- Between one block and two, the first is compressed and the rest stays (R138). -/
theorem drain_of_gt {t : Nat} {v : Vector Word 8} {c : ByteSeq} (h : 64 < c.length) (h' : c.length < 128) :
    drain t v c = (compress v (c.take 64), c.drop 64) := by
  have hcount : drainCount t c.length = 1 := by
    unfold drainCount
    split <;> omega
  rw [drain_eq, hcount]
  rfl

/-- An append that does not overflow drains with the new count (R133). -/
theorem absorb_of_lt {v : Vector Word 8} {k : DWord} {c bytes : ByteSeq} {n : Nat} (h : k.toNat + n < 2 ^ 64) :
    absorb v k c bytes n =
      .live (drain (k.toNat + n) v (c ++ bytes)).1 (k + BitVec.ofNat 64 n) (drain (k.toNat + n) v (c ++ bytes)).2 := by
  rw [absorb, counter_add_toNat h]

/-- Settles O32: the append is in range, and the appended cache is shorter than two blocks, so it drains by one of the four
rules above. -/
theorem updateAppendsCountsAndDrains : Obligations.UpdateAppendsCountsAndDrains := by
  intro s h t cache len blv bitlen n hinv hs ht hi hb hl hlt
  have hc : cache.length = expectedLen t.toNat := by rwa [State.Inv, hs] at hinv
  have hcache := expectedLen_aligned_le t.toNat ht
  have hlen : len.toNat ≤ 64 := ((wellFormed_update_iff len blv bitlen).mp hi).1
  have hchunk := chunk_length len s hlen
  obtain ⟨hn, hm⟩ := updateBits_bounds hb
  have hafter := absorb_inv (v := h) hc ht (hchunk ▸ hn) (hchunk ▸ hm) hlt
  have hexec := execUpdate_append hs ht hb hl hlt
  rw [absorb_of_lt hlt] at hafter hexec
  rw [Engine.Inv, counter_add_toNat hlt] at hafter
  refine ⟨_, _, _, hexec, counter_add_toNat hlt, hafter, ?_⟩
  rintro c rfl
  rw [← chunk_eq]
  have hlength : (cache ++ chunk len s).length = cache.length + len.toNat := by rw [List.length_append, hchunk]
  refine ⟨hlength, fun h64 => ?_, fun h64 h8 => ?_, fun h64 h8 => ?_, fun h64 => ?_⟩
  · rw [drain_of_lt h64]
    exact ⟨rfl, rfl⟩
  · rw [drain_full_aligned h64 (by omega)]
    exact ⟨rfl, rfl⟩
  · rw [drain_full_partial h64 (by omega)]
    exact ⟨rfl, rfl⟩
  · rw [drain_of_gt h64 (by omega)]
    exact ⟨rfl, rfl⟩

/-- Settles O39: the append of `execUpdate_holds`, whose chunk a well-formed UPDATE finds in DIN. -/
theorem updateExtendsTheMessage : Obligations.UpdateExtendsTheMessage := by
  intro s bytes k len blv bitlen n hs hk hi hb hlt
  obtain ⟨hlen, -⟩ := (wellFormed_update_iff len blv bitlen).mp hi
  exact execUpdate_holds hs hk hlen hb hlt

/-! ## Chunking (R137) -/

/-- The counter wraps at a multiple of 8, so its bits beyond whole bytes are those of the sum. -/
theorem counter_add_mod_eight (k : DWord) (n : Nat) :
    (k + BitVec.ofNat 64 n).toNat % 8 = (k.toNat + n) % 8 := by
  rw [BitVec.toNat_add, BitVec.toNat_ofNat]
  omega

/-- Draining at a byte-aligned count and again after `m` more bytes compresses as many blocks as draining once. -/
theorem drainCount_add {t u len m : Nat} (ht : t % 8 = 0) (hu : u % 8 ≠ 0 → 0 < m) :
    drainCount t len + drainCount u (len - 64 * drainCount t len + m) = drainCount u (len + m) := by
  rw [drainCount, if_pos ht, drainCount, drainCount]
  by_cases h8 : u % 8 = 0
  · rw [if_pos h8, if_pos h8]
    omega
  · have := hu h8
    rw [if_neg h8, if_neg h8]
    omega

/-- Settles O37: the blocks of the second drain follow those of the first, and together they are those of the one drain. -/
theorem chunksAbsorbAsOne : Obligations.ChunksAbsorbAsOne := by
  intro h t cache a b n ht hb
  refine ⟨_, _, _, absorb_eq h t cache a (8 * a.length), ?_⟩
  rw [absorb_eq, absorb_eq, BitVec.add_assoc, ← BitVec.ofNat_add, ← List.append_assoc]
  generalize cache ++ a = c
  have hfirst := counter_add_mod_eight t (8 * a.length)
  have hlast := counter_add_mod_eight t (8 * a.length + n)
  have hcount := drainCount_add (len := c.length) (m := b.length)
    (show (t + BitVec.ofNat 64 (8 * a.length)).toNat % 8 = 0 by omega)
    (show (t + BitVec.ofNat 64 (8 * a.length + n)).toNat % 8 ≠ 0 → 0 < b.length by omega)
  have hle := drainCount_le (t + BitVec.ofNat 64 (8 * a.length)).toNat c.length
  generalize drainCount (t + BitVec.ofNat 64 (8 * a.length)).toNat c.length = d at *
  have hdrop : (c ++ b).drop (64 * d) = c.drop (64 * d) ++ b := List.drop_append_of_le_length hle
  rw [List.length_append, List.length_append, List.length_drop, ← hcount, compressBlocks_add,
    compressBlocks_append d _ _ _ hle, hdrop, Nat.mul_add, ← List.drop_drop, hdrop]

end Sys2Proof.Machine
end

section
/-! PROOFS. DIGEST (42_finalize.md R150 to R158): the padding bit, the padded cache byte by byte and as message bits, what
DIGEST answers in each mode, and SHA-256 of the message the engine holds. -/

namespace Sys2Proof.Machine

/-! ## The padding bit (R153) -/

/-- The byte with the padding bit, bit by bit: message bit `j` stands at bit `7 - j` (R11). -/
theorem padPartialByte_getLsbD (clear : Bool) (b : Byte) {sh j : Nat} (hsh : sh < 8) (hj : j < 8) :
    (padPartialByte clear sh b).getLsbD (7 - j) =
      (if j < sh then b.getLsbD (7 - j) else if j = sh then true else (!clear && b.getLsbD (7 - j))) := by
  have hset : (0x80#8 >>> sh).getLsbD (7 - j) = decide (j = sh) := by
    rw [BitVec.getLsbD_ushiftRight, show (0x80#8) = BitVec.twoPow 8 7 from rfl, BitVec.getLsbD_twoPow]
    simp only [decide_eq_decide, decide_true, Bool.true_and, Nat.reduceLT]
    omega
  have hkeep : (0xFF#8 <<< (8 - sh)).getLsbD (7 - j) = decide (j < sh) := by
    rw [BitVec.getLsbD_shiftLeft, show (0xFF#8) = BitVec.allOnes 8 from rfl, BitVec.getLsbD_allOnes,
      Bool.eq_iff_iff]
    simp only [Bool.and_eq_true, Bool.not_eq_true', decide_eq_true_eq, decide_eq_false_iff_not]
    omega
  have hkept : (if clear then b &&& (0xFF#8 <<< (8 - sh)) else b).getLsbD (7 - j) =
      (b.getLsbD (7 - j) && (!clear || decide (j < sh))) := by
    cases clear with
    | false => simp
    | true => simp [hkeep]
  rw [padPartialByte, BitVec.getLsbD_or, hset, hkept]
  rcases lt_trichotomy j sh with h | rfl | h
  · simp [h, h.ne]
  · simp
  · simp [h.ne', h.not_gt, Bool.and_comm]

/-- Settles O45: the two places of the bit, the byte bit by bit, and the masks of the rule's table. -/
theorem paddingBitIsSetAtTheShift : Obligations.PaddingBitIsSetAtTheShift :=
  ⟨fun clear t c last => ⟨addPaddingBit_aligned clear t c, addPaddingBit_partial clear t c last⟩,
    fun clear b _ _ _ hsh hj => padPartialByte_getLsbD clear b hsh hj,
    fun _ => ⟨rfl, rfl, rfl, rfl, rfl, rfl, rfl⟩⟩

/-- Only a byte-aligned count makes the cache longer (R153). -/
theorem addPaddingBit_length {clear : Bool} {t : Nat} {c c' : ByteSeq} (h : addPaddingBit clear t c = some c') :
    c'.length = c.length + if t % 8 = 0 then 1 else 0 := by
  by_cases ht : t % 8 = 0
  · rw [addPaddingBit_aligned clear t c ht] at h
    cases h
    simp [ht]
  · rcases List.eq_nil_or_concat' c with rfl | ⟨c₀, last, rfl⟩
    · rw [addPaddingBit_empty clear t ht] at h
      cases h
    · rw [addPaddingBit_partial clear t c₀ last ht] at h
      cases h
      simp [ht]

/-- After the padding bit the cache is the cached message bits, a 1, and zeros to the end of the byte (R153, R158). -/
theorem bitsOf_addPaddingBit {clear : Bool} {t : Nat} {c c' : ByteSeq} (hc : c.length = expectedLen t)
    (hexcess : clear = true ∨ ∀ b ∈ (bitsOf c).drop (t % 512), b = false) (h : addPaddingBit clear t c = some c') :
    bitsOf c' = (bitsOf c).take (t % 512) ++ true :: List.replicate (7 - t % 8) false := by
  by_cases ht : t % 8 = 0
  · rw [addPaddingBit_aligned clear t c ht] at h
    cases h
    rw [expectedLen_aligned t ht] at hc
    rw [bitsOf_append, List.take_of_length_le (by rw [bitsOf_length]; omega), ht]
    rfl
  · rw [expectedLen_partial t ht] at hc
    rcases List.eq_nil_or_concat' c with rfl | ⟨c₀, last, rfl⟩
    · simp at hc
    rw [addPaddingBit_partial clear t c₀ last ht] at h
    cases h
    have hsplit : t % 512 = (bitsOf c₀).length + t % 8 := by
      rw [List.length_append, List.length_singleton] at hc
      rw [bitsOf_length]
      omega
    rw [bitsOf_append, bitsOf_singleton, hsplit, List.drop_length_add_append] at hexcess
    rw [bitsOf_append, bitsOf_append, bitsOf_singleton, bitsOf_singleton, hsplit, List.take_length_add_append,
      byteBits_padPartialByte clear (t % 8) last (by omega) (by omega) hexcess, List.append_assoc]

/-! ## The padded cache (R154, R158) -/

/-- Where the post-condition holds, the padded cache is the cache with its padding bit, the zero fill, and the count. -/
theorem padCache_eq_some {clear : Bool} {t : DWord} {c p : ByteSeq} (h : padCache clear t c = some p) :
    ∃ c', addPaddingBit clear t.toNat c = some c' ∧ p = c' ++ zeros (zeroFill (t.toNat % 512)) ++ be64Bytes t := by
  unfold padCache at h
  split at h
  · cases h
  · simp only at h
    split at h
    · cases h
      exact ⟨_, ‹_›, rfl⟩
    · cases h

/-- The `0` bits that complete the padded byte and the zero-fill bytes are those of the standard padding (R152, R158). -/
theorem zeroFill_bits (t : Nat) : 7 - t % 8 + 8 * zeroFill (t % 512) = padZeros t := by
  unfold zeroFill padZeros
  split <;> omega

/-- The padded cache as bits: the end of the padded message from the cached bits on (R158). -/
theorem bitsOf_padCache {clear : Bool} {t : DWord} {c p : ByteSeq} (hc : c.length = expectedLen t.toNat)
    (hexcess : clear = true ∨ ∀ b ∈ (bitsOf c).drop (t.toNat % 512), b = false) (h : padCache clear t c = some p) :
    bitsOf p = (bitsOf c).take (t.toNat % 512) ++ true :: List.replicate (padZeros t.toNat) false ++
      bitsOf (be64Bytes t) := by
  obtain ⟨c', hbit, rfl⟩ := padCache_eq_some h
  rw [bitsOf_append, bitsOf_append, bitsOf_addPaddingBit hc hexcess hbit, bitsOf_zeros, ← zeroFill_bits,
    List.replicate_add, List.append_assoc (List.take _ _), List.cons_append]

/-- Settles O44: the padded cache exists, and its zeros are those `padZeros` counts. -/
theorem paddedCacheIsTheStandardPadding : Obligations.PaddedCacheIsTheStandardPadding := by
  intro clear t c hc hexcess
  obtain ⟨p, hp, -⟩ := padCache_some clear t c hc
  refine ⟨p, padZeros t.toNat, hp, bitsOf_padCache hc hexcess hp, ?_, ?_⟩
  · rw [padZeros]
    omega
  · rw [padZeros]
    omega

/-! ## DIGEST, mode by mode -/

/-- RESULT in FINAL mode (R34). -/
theorem readReg_result_final {s : State} {d : Vector Word 8} {t : DWord} (hs : s.eng = .final d t) (i : Fin 8) :
    readReg (.result i) s = d[i] := by
  rw [readReg, hs]
  rfl

/-- Settles O46: the commit leaves the engine, and so RESULT, as it was. -/
theorem digestIsMemoized : Obligations.DigestIsMemoized :=
  fun _ _ _ hs => ⟨_, execDigest_final hs, rfl, readReg_result_final hs⟩

/-- Settles O47: a padded cache would have a last byte to pad, and 64 or 128 bytes. -/
theorem corruptPaddingEntersFatal : Obligations.CorruptPaddingEntersFatal := by
  intro s h t c hs hcorrupt
  refine execDigest_corrupt hs (Option.eq_none_iff_forall_ne_some.mpr fun p hp => ?_)
  obtain ⟨c', hbit, rfl⟩ := padCache_eq_some hp
  rcases hcorrupt with ⟨ht, rfl⟩ | hlength
  · rw [addPaddingBit_empty _ _ ht] at hbit
    cases hbit
  · have hp64 := padCache_length hp
    simp only [List.length_append, zeros_length, be64Bytes_length, addPaddingBit_length hbit] at hp64
    obtain ⟨h64, h128⟩ := hlength _ rfl
    exact hp64.elim h64 h128

/-- Settles O43: the cache pads to one block or two, and `compress` reads the first 64 bytes only. -/
theorem digestFinalizes : Obligations.DigestFinalizes := by
  intro s h t c hinv hs
  rw [State.Inv, hs] at hinv
  obtain ⟨p, hp, hlength⟩ := padCache_some s.config.clearTrailingBits t c hinv
  refine ⟨p, compressBlocks (p.length / 64) h p, _, hp, hlength, fun h64 => ?_, fun h128 => ?_, execDigest_live hs hp, rfl,
    readReg_result_final rfl⟩
  · rw [h64]
    exact compress_take h p
  · rw [h128]
    exact compress_take (compress h (p.take 64)) (p.drop 64)

/-! ## SHA-256 of the message (R158) -/

/-- The message bits that an engine with `n` blocks compressed still has in its cache: the last `k mod 512` (R27). -/
theorem cachedBits_eq {k n len : Nat} (hlen : len = expectedLen k) (h : 64 * n + len = (k + 7) / 8) :
    8 * (64 * n) + k % 512 = k := by
  by_cases hk : k % 8 = 0
  · rw [expectedLen_aligned k hk] at hlen
    omega
  · rw [expectedLen_partial k hk] at hlen
    omega

/-- The hash of a message whose padding is the bits of `64 n` bytes and of a padded cache continues from the chaining value
after those `n` blocks (R111, R158). -/
theorem sha256_of_padMessage {m : List Bool} {n : Nat} {bytes p : ByteSeq} (hn : 64 * n ≤ bytes.length)
    (h : padMessage m = bitsOf (bytes.take (64 * n) ++ p)) :
    sha256 m = compressBlocks (p.length / 64) (compressBlocks n initialH bytes) p := by
  have htake : (bytes.take (64 * n)).length = 64 * n := List.length_take_of_le hn
  have hfirst : compressBlocks n initialH (bytes.take (64 * n)) = compressBlocks n initialH bytes := by
    conv_rhs => rw [← List.take_append_drop (64 * n) bytes, compressBlocks_append _ _ _ _ htake.ge]
  have hcount : 8 * (64 * n + p.length) / 512 = n + p.length / 64 := by omega
  rw [sha256, h, bytesOfBits_bitsOf, bitsOf_length, List.length_append, htake, hcount, compressBlocks_add,
    compressBlocks_append _ _ _ _ htake.ge, hfirst, List.drop_left' htake]

/-- The cache of an engine that holds a message pads, and compressing its blocks gives the hash of the message's bits (R155,
R158). -/
theorem padCache_of_holds {clear : Bool} {h : Vector Word 8} {t : DWord} {c bytes : ByteSeq} {k : Nat}
    (hholds : (Engine.live h t c).Holds bytes k) (hexcess : clear = true ∨ ∀ b ∈ (bitsOf bytes).drop k, b = false) :
    ∃ p, padCache clear t c = some p ∧ compressBlocks (p.length / 64) h p = sha256 ((bitsOf bytes).take k) := by
  obtain ⟨rfl, hbytes, hc, n, hn, rfl, rfl⟩ := hholds
  obtain ⟨p, hp, -⟩ := padCache_some clear t _ hc
  refine ⟨p, hp, (sha256_of_padMessage (by omega) ?_).symm⟩
  have hk := cachedBits_eq hc (hn.trans hbytes)
  have hdrop : (bitsOf bytes).drop t.toNat = (bitsOf (bytes.drop (64 * n))).drop (t.toNat % 512) := by
    rw [bitsOf_drop, List.drop_drop, hk]
  have htake : (bitsOf bytes).take t.toNat =
      bitsOf (bytes.take (64 * n)) ++ (bitsOf (bytes.drop (64 * n))).take (t.toNat % 512) := by
    rw [bitsOf_take, bitsOf_drop, ← List.take_add, hk]
  have hlength : ((bitsOf bytes).take t.toNat).length = t.toNat :=
    List.length_take_of_le (by rw [bitsOf_length]; omega)
  rw [hdrop] at hexcess
  rw [padMessage, hlength, htake, bitsOf_append, bitsOf_padCache hc hexcess hp, BitVec.ofNat_toNat, BitVec.setWidth_eq]
  simp only [List.append_assoc]

/-- Settles O40: the cache pads, and its blocks end the hash of the message; T is the number of bits held. -/
theorem digestIsSha256OfTheMessage : Obligations.DigestIsSha256OfTheMessage := by
  intro s bytes k hholds hexcess
  cases hs : s.eng with
  | live h t c =>
    rw [hs] at hholds
    obtain ⟨p, hp, hhash⟩ := padCache_of_holds hholds hexcess
    obtain ⟨rfl, -⟩ := hholds
    rw [← hhash, BitVec.ofNat_toNat, BitVec.setWidth_eq]
    exact execDigest_live hs hp
  | final d t => rw [hs] at hholds; exact hholds.elim
  | fatal => rw [hs] at hholds; exact hholds.elim

end Sys2Proof.Machine
end

section
/-! PROOFS. EXPORT and IMPORT (43_checkpoint.md R171 to R179): the engine a record describes, the record of an engine, and the
round trip between them. -/

namespace Sys2Proof.Machine

/-! ## The engine a record describes (R175) -/

theorem importEngine_final {ck : Checkpoint} (h : ck.shape = 1) : importEngine ck = some (.final ck.h (totalBits ck)) :=
  if_pos h

theorem importEngine_live {ck : Checkpoint} (h : ck.shape = 0)
    (hl : ck.cacheLen.toNat = expectedLen (totalBits ck).toNat) :
    importEngine ck = some (.live ck.h (totalBits ck) (importedCache ck)) := by
  rw [importEngine, h, if_neg (by decide), if_neg (not_not.mpr hl)]

/-- The inconsistent live record of R178. -/
theorem importEngine_none {ck : Checkpoint} (h : ck.shape = 0)
    (hl : ck.cacheLen.toNat ≠ expectedLen (totalBits ck).toNat) : importEngine ck = none := by
  rw [importEngine, h, if_neg (by decide), if_pos hl]

/-- Settles O50: each kind of record describes one engine, or none. -/
theorem importReplacesTheEngine : Obligations.ImportReplacesTheEngine := fun s =>
  ⟨totalBits s.ck, totalBits_toNat s.ck, fun h => execImport_engine (importEngine_final h),
    fun h hl => execImport_engine (importEngine_live h hl), fun h hl => execImport_bad (importEngine_none h hl)⟩

/-- The partial bits of the count stand in CK_TOTAL_LO. -/
theorem totalBits_mod_eight (ck : Checkpoint) : (totalBits ck).toNat % 8 = ck.totalLo.toNat % 8 := by
  rw [totalBits_toNat]
  omega

/-- Settles O51: code 0 leaves only the LIVE engine of the record, whose count is partial. -/
theorem importRederivesPartial : Obligations.ImportRederivesPartial := by
  intro s u hshape hlo h hok
  rcases execImport_next h with ⟨_, rfl⟩ | ⟨e, he, rfl⟩
  · cases hok
  rcases importEngine_some he with ⟨hfinal, _⟩ | ⟨_, _, rfl⟩
  · cases hshape.symm.trans hfinal
  have hpartial : (totalBits s.ck).toNat % 8 ≠ 0 := totalBits_mod_eight s.ck ▸ hlo
  have heng := commitCode_eng (s := s.withEng (.live s.ck.h (totalBits s.ck) (importedCache s.ck))) .ok
  refine ⟨?_, execUpdate_partial heng hpartial⟩
  rw [readReg, statusWord_state, heng, State.withEng_eng, stateField_live, if_neg hpartial]

/-! ## The record of an engine (R171) -/

/-- CK_CACHE_LEN holds the length of every cache that fits CK_CACHE (R36, R170). -/
theorem toNat_cacheLen {c : ByteSeq} (h : c.length ≤ 64) : (BitVec.ofNat 7 c.length).toNat = c.length := by
  rw [BitVec.toNat_ofNat]
  omega

/-- Settles O49: the record field by field, its cache bytes by `windowBytes_packBytes`. -/
theorem exportWritesTheRecord : Obligations.ExportWritesTheRecord := by
  refine fun s => ⟨fun h t c hs hc => ?_, fun d t hs => ?_, execExport_fatal⟩
  · have hr := execExport_record (congrArg exportRecord hs)
    exact ⟨_, hr, rfl, toNat_cacheLen hc, rfl, rfl, rfl, windowBytes_packBytes hc⟩
  · have hr := execExport_record (congrArg exportRecord hs)
    exact ⟨_, hr, rfl, rfl, rfl, rfl, rfl, fun i => Vector.getElem_replicate i.isLt⟩

/-! ## The round trip (R179) -/

/-- A safe engine has a record, and the record describes that engine. -/
theorem bind_exportRecord_importEngine {e : Engine} (he : e.Inv) : (exportRecord e).bind importEngine = some e := by
  cases e with
  | live h t c =>
    have hc : c.length ≤ 64 := he ▸ expectedLen_le t.toNat
    rw [exportRecord, Option.bind_some, importEngine_live rfl]
    · simp only [totalBits, append_halves, importedCache, toNat_cacheLen hc, windowBytes_packBytes hc, List.take_left]
    · simp only [totalBits, append_halves, toNat_cacheLen hc]
      exact he
  | final d t =>
    rw [exportRecord, Option.bind_some, importEngine_final rfl]
    simp only [totalBits, append_halves]
  | fatal => exact he.elim

/-- Settles O52: EXPORT leaves the record in CK_* and the engine alone, and IMPORT reads CK_* only. -/
theorem exportImportRoundTrip : Obligations.ExportImportRoundTrip := by
  intro s hs
  obtain ⟨r, hr, he⟩ := Option.bind_eq_some_iff.mp (bind_exportRecord_importEngine hs)
  refine ⟨_, execExport_record hr, rfl, fun u hu => execImport_engine ?_⟩
  rw [hu]
  exact he

end Sys2Proof.Machine
end

section
/-! PROOFS. The control of the engine (44_control.md R190, R193): what the step of a pending word is, and the answers of FATAL
mode (60_exceptions.md R204). -/

namespace Sys2Proof.Machine

/-! ## The step -/

/-- Settles O7: the engine's turn is the commit of the pending word, and the commit goes by what the word decodes to. -/
theorem stepCommitsTheDecodedCommand : Obligations.StepCommitsTheDecodedCommand := by
  intro s ts w hn hp
  have hstep : step s = commit w (s.withTurns ts) := step_engine hn hp
  exact ⟨fun i hd => hstep.trans (commit_ok hd _), fun e hd => hstep.trans (commit_error hd _)⟩

/-! ## FATAL mode (R204) -/

/-- RESULT in FATAL mode (R34). -/
theorem readReg_result_fatal {s : State} (hs : s.eng = .fatal) (i : Fin 8) : readReg (.result i) s = 0 := by
  rw [readReg, hs]
  rfl

/-- Of the commands only INIT, and an IMPORT that ends with code 0, lead out of FATAL mode. -/
theorem exec_leaves_fatal {i : Instr} {s t : State} (hs : s.eng = .fatal) (h : exec i s = .next t)
    (hne : t.eng ≠ .fatal) : i = .init ∨ (i = .importCk ∧ t.err = .ok) := by
  cases i with
  | init => exact .inl rfl
  | update len blv bitlen =>
    cases (execUpdate_fatal hs len blv bitlen).symm.trans h
    exact absurd hs hne
  | digest =>
    cases (execDigest_fatal hs).symm.trans h
    exact absurd hs hne
  | exportCk => exact absurd ((exec_exportCk_eng h).trans hs) hne
  | importCk =>
    rcases execImport_next h with ⟨_, rfl⟩ | ⟨_, _, rfl⟩
    · exact absurd hs hne
    · exact .inr ⟨rfl, rfl⟩

/-- Settles O48: one answer for each command that FATAL mode rejects, and for an illegal word. -/
theorem fatalModeAnswers : Obligations.FatalModeAnswers :=
  fun s hs => ⟨execUpdate_fatal hs, execDigest_fatal hs, execExport_fatal hs, fun _ _ hd => commit_error hd s,
    readReg_result_fatal hs, fun _ _ => exec_leaves_fatal hs⟩

end Sys2Proof.Machine
end

section
/-! PROOFS. The result codes (60_exceptions.md R200 to R202): what a command that ends with an error leaves unchanged. -/

namespace Sys2Proof.Machine

/-- A command that ends with an error commits the code alone, where code 3 is FATAL mode's; or it is DIGEST in LIVE mode,
moving to FATAL. -/
theorem exec_error {i : Instr} {s t : State} (h : exec i s = .next t) (herr : t.err ≠ .ok) :
    (∃ c, t = commitCode c s ∧ (c = .corruptPaddingState → s.eng = .fatal)) ∨
    (i = .digest ∧ (∃ v k c, s.eng = .live v k c) ∧ t = commitCode .corruptPaddingState (s.withEng .fatal)) := by
  cases i with
  | init =>
    cases h
    contradiction
  | update len blv bitlen =>
    rcases execUpdate_next h with ⟨hs, rfl⟩ | ⟨_, _, _, rfl⟩ | ⟨v, k, c, _, ⟨_, rfl⟩ | ⟨_, _, rfl⟩ | ⟨_, _, rfl⟩ |
      ⟨_, _, _, _, _, rfl⟩⟩
    · exact .inl ⟨_, rfl, fun _ => hs⟩
    · exact .inl ⟨_, rfl, nofun⟩
    · exact .inl ⟨_, rfl, nofun⟩
    · exact .inl ⟨_, rfl, nofun⟩
    · contradiction
    · contradiction
  | digest =>
    rcases execDigest_next h with ⟨hs, rfl⟩ | ⟨_, _, _, rfl⟩ | ⟨v, k, c, hs, ⟨_, rfl⟩ | ⟨_, _, rfl⟩⟩
    · exact .inl ⟨_, rfl, fun _ => hs⟩
    · contradiction
    · exact .inr ⟨rfl, ⟨v, k, c, hs⟩, rfl⟩
    · contradiction
  | exportCk =>
    rcases execExport_next h with ⟨hs, rfl⟩ | ⟨_, _, rfl⟩
    · exact .inl ⟨_, rfl, fun _ => hs⟩
    · contradiction
  | importCk =>
    rcases execImport_next h with ⟨_, rfl⟩ | ⟨_, _, rfl⟩
    · exact .inl ⟨_, rfl, nofun⟩
    · contradiction

/-- Settles O36: a commit of a code alone writes no other field, and DIGEST's move to FATAL starts in LIVE mode with code 3,
so the other clauses do not meet it. -/
theorem errorsDoNotCorrupt : Obligations.ErrorsDoNotCorrupt := by
  refine ⟨fun i s t h herr => ?_, fun s t h => ?_⟩
  · rcases exec_error h herr with ⟨c, rfl, hfatal⟩ | ⟨rfl, ⟨v, k, c, hs⟩, rfl⟩
    · refine ⟨fun _ => ⟨rfl, rfl, rfl⟩, fun _ _ => ⟨rfl, rfl, rfl⟩, fun hc hne => absurd (hfatal hc) hne, ?_⟩
      exact fun d n hs => ⟨hs, fun _ => rfl⟩
    · refine ⟨fun hc => absurd rfl hc, fun _ hf => (nomatch hs.symm.trans hf), fun _ _ => ⟨rfl, rfl⟩, ?_⟩
      exact fun d n hf => nomatch hs.symm.trans hf
  · cases h
    exact ⟨rfl, rfl, rfl⟩

end Sys2Proof.Machine
end
